-- ==== Sys2Proof/Word.lean ====
section
/-! DEFINITION. The three word-like types of the block. Every store access and every packet element is a whole
32-bit word (spec/20_memory.md R58), the accumulator of the bit-addressing primitive is 64 bits (spec/00_scope.md
R14), and bit 0 is the least significant bit of each (R17). -/

namespace Sys2Proof

/-- `WORD` = 32 bits (R12): a store word, a packet word, an input or result value (R13). -/
abbrev Word := BitVec 32

/-- `ACCW` = 64 bits (R14): the transient accumulator that a field is read or written through. -/
abbrev Acc := BitVec 64

/-- A packed store: exactly the words that are state, word 0 first (R41, R53). -/
abbrev Store := List Word

end Sys2Proof
end

