-- ==== Sys2Proof/Syntax.lean ====
section
/-! DEFINITION. The commands of the block, as the abstract `Command` of spec/30_encoding.md R74: one constructor for
each row of spec/opcode_table.json. R74's sixth form, `illegal`, is no row of the table: it is the decoder's own
verdict (R97), the error side of `decode`. -/

namespace Sys2Proof

/-- A command (R74), with its operands as the whole unsigned 32-bit words they are (R93). -/
inductive Instr where
  /-- CREATE (R81, R185): the kind code, recognized or not (R92) -/
  | create (kind : Word)
  /-- COMPRESS (R82, R102): the input sequence, element 0 first (R77) -/
  | compress (values : List Word)
  /-- DECOMPRESS (R83, R104) -/
  | decompress
  /-- GET (R84, R105): the element index -/
  | get (index : Word)
  /-- SIZE (R85, R107) -/
  | size
deriving DecidableEq, Repr

/-- One row of spec/opcode_table.json: a head `W0:W1` (W0 in bits 63:32) belongs to the row if and only if
`head &&& mask = pattern`. -/
structure TableRow where
  mnemonic : String
  pattern : BitVec 64
  mask : BitVec 64
deriving DecidableEq, Repr

end Sys2Proof
end

