-- ==== Sys2Proof/WellFormed.lean ====
section
/-! DEFINITION. The one check a command must pass to be a command of spec/30_encoding.md R74: the sequence of a
COMPRESS has fewer than 2^32 values, so that its count fits the operand word W1 (R76, R82). -/

namespace Sys2Proof

/-- R74: `compress(A)` has `len(A) < 2^32`; every value of every other operand is admitted (R93; notes/assumptions/13.md). -/
def Instr.wf : Instr → Bool
  | .compress values => decide (values.length < 2 ^ 32)
  | .create _ => true
  | .decompress => true
  | .get _ => true
  | .size => true

end Sys2Proof
end

