-- ==== Sys2Proof/Decode.lean ====
section
/-! DEFINITION. Command packets (spec/30_encoding.md sections 1, 2, 4, 7): how long a packet is, the decoder, total on
any list of words and rejecting by name, the encoder, the opcode table, and the words of one row of the table. -/

namespace Sys2Proof

/-- Bits 31:24 of the header word W0 (R75). -/
def opcodeOf (w0 : Word) : BitVec 8 := w0.extractLsb' 24 8

/-- Bits 23:0 of the header word W0, reserved and required to be 0 (R75, R90). -/
def reservedOf (w0 : Word) : BitVec 24 := w0.extractLsb' 0 24

/-- The number of payload words after the head (R78): W1 for opcode 0x02, whatever the other bits of W0 are, and
none for every other opcode. -/
def payloadLength (w0 w1 : Word) : Nat := if opcodeOf w0 = 0x02#8 then w1.toNat else 0

/-- The next complete packet at the front of the words presented on the command port, and the words after it.
`none` where the words end before the packet does (R78, R98). -/
def takePacket : List Word → Option (List Word × List Word)
  | w0 :: w1 :: rest =>
    if payloadLength w0 w1 ≤ rest.length then
      some (w0 :: w1 :: rest.take (payloadLength w0 w1), rest.drop (payloadLength w0 w1))
    else none
  | _ => none

/-- Why the decoder answers `illegal` (R97), by name. -/
inductive DecodeError where
  /-- the words are not exactly one complete packet (R78, R98): not a command, and no verdict of R97 -/
  | notOnePacket
  /-- the opcode is 0x00 or 0x06 to 0xFF (R91) -/
  | illegalOpcode
  /-- W0[23:0] is not 0 (R90) -/
  | reservedBits
  /-- W1 is not 0 in a DECOMPRESS or a SIZE (R90) -/
  | operandNotZero
deriving DecidableEq, Repr

/-- The decoder (R97), in R97's order of tests: opcode, reserved bits, zero operand, abstract form. -/
def decode : List Word → Except DecodeError Instr
  | w0 :: w1 :: payload =>
    if payload.length ≠ payloadLength w0 w1 then .error .notOnePacket
    else if opcodeOf w0 = 0x00#8 ∨ 0x06#8 ≤ opcodeOf w0 then .error .illegalOpcode
    else if reservedOf w0 ≠ 0#24 then .error .reservedBits
    else if (opcodeOf w0 = 0x03#8 ∨ opcodeOf w0 = 0x05#8) ∧ w1 ≠ 0#32 then .error .operandNotZero
    else if opcodeOf w0 = 0x01#8 then .ok (.create w1)
    else if opcodeOf w0 = 0x02#8 then .ok (.compress payload)
    else if opcodeOf w0 = 0x03#8 then .ok .decompress
    else if opcodeOf w0 = 0x04#8 then .ok (.get w1)
    else .ok .size
  | _ => .error .notOnePacket

/-- The encoder (R81 to R85): the packet of a command. -/
def encode : Instr → List Word
  | .create kind => [0x01000000#32, kind]
  | .compress values => 0x02000000#32 :: BitVec.ofNat 32 values.length :: values
  | .decompress => [0x03000000#32, 0x00000000#32]
  | .get index => [0x04000000#32, index]
  | .size => [0x05000000#32, 0x00000000#32]

/-- The mnemonic of a command (R79). -/
def mnemonicOf : Instr → String
  | .create _ => "CREATE"
  | .compress _ => "COMPRESS"
  | .decompress => "DECOMPRESS"
  | .get _ => "GET"
  | .size => "SIZE"

/-- The rows of spec/opcode_table.json, with its match and mask values (R81 to R85). -/
def opcodeTable : List TableRow :=
  [ { mnemonic := "CREATE", pattern := 0x0100000000000000, mask := 0xFFFFFFFF00000000 },
    { mnemonic := "COMPRESS", pattern := 0x0200000000000000, mask := 0xFFFFFFFF00000000 },
    { mnemonic := "DECOMPRESS", pattern := 0x0300000000000000, mask := 0xFFFFFFFFFFFFFFFF },
    { mnemonic := "GET", pattern := 0x0400000000000000, mask := 0xFFFFFFFF00000000 },
    { mnemonic := "SIZE", pattern := 0x0500000000000000, mask := 0xFFFFFFFFFFFFFFFF } ]

/-- The 64-bit number `W0:W1` that the patterns are written over: W0 in bits 63:32. -/
def headOf (w0 w1 : Word) : BitVec 64 := w0 ++ w1

/-- Word `j` of a number of `count` words whose FIRST word is the most significant, as the format 'HEAD64 (W0:W1, W0
in bits 63:32)' of spec/opcode_table.json numbers them (notes/assumptions/6.md). -/
def tableWordAt (count w j : Nat) : Word := BitVec.ofNat 32 (w >>> (32 * (count - 1 - j)))

/-- The packet whose bits the table gives as the `nbits`-bit number `w`, followed by the words of zeros that complete
it: a head of two words, and for a COMPRESS the payload words its count asks for. -/
def tableWords (nbits w : Nat) : List Word :=
  let count := (nbits + 31) / 32
  let given := (List.range count).map (tableWordAt count w)
  let head := given ++ List.replicate (2 - count) 0#32
  match head with
  | w0 :: w1 :: payload => head ++ List.replicate (payloadLength w0 w1 - payload.length) 0#32
  | _ => head

/-- What the decoder reads from the bits of a row of spec/opcode_table.json; `none` where it rejects. -/
def decodeTableWord (nbits w : Nat) : Option Instr :=
  match decode (tableWords nbits w) with
  | .ok i => some i
  | .error _ => none

end Sys2Proof
end

