-- ==== Sys2Proof/Config.lean ====
section
/-! DEFINITION. The two open implementation parameters of the block, `NMAX` (spec/00_scope.md R15) and `OVF_MODE`
(R16). The widths `WORD`, `VALW` and `ACCW` are fixed (R12 to R14) and are the types of Word.lean. The spec leaves no
value undefined, so there is no free value here. -/

namespace Sys2Proof

/-- `OVF_MODE` (R16): the width at which an entry of the overflow table is stored. -/
inductive OvfMode where
  /-- entries are packed at the global width `KG`; the value the spec takes for the hardware -/
  | kglobal
  /-- one entry in each 32-bit word -/
  | word
deriving DecidableEq, Repr

/-- The parameters of one block (R11: the `Params` argument of the spec's `exec`). They are fixed for a given block
and no command writes them (R43). `nmax` has 31 bits, so that R15's upper bound 2^31-1 holds by its type. -/
structure Params where
  /-- the largest sequence length a COMPRESS accepts (R15) -/
  nmax : BitVec 31
  /-- the overflow-entry width mode (R16) -/
  ovfMode : OvfMode
deriving DecidableEq, Repr

/-- R15's lower bound: `1 <= NMAX`. -/
def Params.wf (par : Params) : Bool := decide (1 ≤ par.nmax.toNat)

/-- The parameters that spec/95_test_vectors.md uses 'unless a vector says otherwise': NMAX = 2^31-1 and
OVF_MODE = KGLOBAL. DESIGN CHOICE (notes/assumptions/1.md): the parameters of the model's reset state; every
statement about a state holds for every other value too. -/
def Params.spec : Params := { nmax := 2147483647, ovfMode := .kglobal }

end Sys2Proof
end

