-- ==== Sys2Proof/Machine/State.lean ====
section
/-! DEFINITION. The state of the block: the codec context with its eleven registers and two stores
(spec/10_state.md R25 to R40), and the model's own fields, which stand for the parameters and for the two ports
(notes/assumptions/1.md to 4.md). Also the outcomes: the abstract responses (spec/30_encoding.md R87), the five errors
(R88), and the model's faults and refusals. -/

namespace Sys2Proof.Machine

/-- The three codecs (R186). -/
inductive Codec where
  /-- V1, spec/42_spanning_v1.md -/
  | spanning
  /-- V2, spec/43_non_spanning_v2.md -/
  | nonSpanning
  /-- V3, spec/44_overflow_v3.md -/
  | overflow
deriving DecidableEq, Repr

/-- The four values of the 2-bit register `KIND` (R26): 0, 1, 2 and 3 in this order (DEDUCED, safe:
notes/assumptions/10.md). -/
inductive Kind where
  | spanning
  | nonSpanning
  | overflow
  /-- 3 = NONE: no instance exists -/
  | none
deriving DecidableEq, Repr

/-- The codec context (R25): every register of R26 to R36 at its width, and the words of the two stores that are state
(R39 to R41). -/
structure Context where
  /-- `KIND` (R26), 2 bits: the selected codec, or NONE -/
  kind : Kind
  /-- `N` (R27): the length of the last compressed sequence -/
  n : BitVec 31
  /-- `K` (R28): the field width of V1 and the slot width of V2 -/
  k : BitVec 6
  /-- `EPW` (R29): the slots in one word of V2 -/
  epw : BitVec 6
  /-- `KG` (R30): the global width of V3 -/
  kg : BitVec 6
  /-- `P` (R31): the payload width of a V3 slot -/
  p : BitVec 6
  /-- `KP` (R32): the slot width of V3, flag and payload -/
  kp : BitVec 6
  /-- `MAXN` (R33): the largest value V3 stores inline -/
  maxn : BitVec 32
  /-- `M` (R34): the number of entries of the overflow table -/
  m : BitVec 31
  /-- `MAINLEN` (R35): the number of words of MAIN -/
  mainlen : BitVec 32
  /-- `OVFLEN` (R36): the number of words of OVF -/
  ovflen : BitVec 32
  /-- `MAIN` (R39): the main packed store -/
  main : Store
  /-- `OVF` (R40): the overflow store -/
  ovf : Store
deriving DecidableEq, Repr

/-- The errors of the block (R88, R200), which are architected responses and not model faults (R218). -/
inductive Error where
  /-- GET with an index outside [0, N) (R194) -/
  | boundsError
  /-- CREATE with an unrecognized kind (R195) -/
  | configurationError
  /-- COMPRESS with more than NMAX values (R197) -/
  | capacityError
  /-- a command that needs an instance while KIND = NONE (R198) -/
  | noInstance
  /-- a packet that decodes to `illegal` (R199) -/
  | illegalCommand
deriving DecidableEq, Repr

/-- The abstract response (R87). -/
inductive Response where
  | ok
  | okValue (v : Word)
  | okSize (s : BitVec 64)
  | okSeq (values : List Word)
  | error (e : Error)
deriving DecidableEq, Repr

/-- The whole state of the model. `ctx` is all the state the spec gives the block between two commands; the other
fields are the model's own. -/
structure State where
  /-- the codec context (R25) -/
  ctx : Context
  /-- the block's parameters (R11, R15, R16): carried here because `exec` takes no `Params` argument, and written by
  no command (R43) -/
  params : Params
  /-- the words the host presents on the command port and the engine has not taken yet, the next one first; the host
  presents a packet only after the response to the packet before it (R73, R237) -/
  cmdPort : List Word
  /-- the host has broken the serialisation of packets: it interleaved two of them, or pushed one into a command that
  was being executed (R225) -/
  portClash : Bool
  /-- the response packets produced and not yet taken by the host, oldest first, one for each command (R86) -/
  respPort : List (List Word)
deriving DecidableEq, Repr

/-- What stops the machine with a fault. Both arise only in a context that no run from reset reaches: the spec gives
every complete packet a response in every reachable state, and leaves other start states outside itself
(spec/20_memory.md R72, spec/70_reset_and_hazards.md R238, spec/93_implementation_defined.md U12; DEDUCED, safe:
notes/assumptions/7.md). -/
inductive Fault where
  /-- An access to a store word at an index that is not state, at or above MAINLEN or OVFLEN or the store's end (R41).
  Raised by the word accesses memRead and memWrite, in GET, DECOMPRESS and COMPRESS. Safe: the model stops where no
  rule gives a value. -/
  | absentWord
  /-- A width register outside the range its rule gives (R122, R124, R148), or a field value that does not fit the
  result word (R139, R174). Raised by the address functions and by toWord, in GET, DECOMPRESS and COMPRESS. Safe, for
  the same reason. -/
  | badWidth
deriving DecidableEq, Repr

/-- What the model refuses. -/
inductive Refusal where
  /-- No meaning yet for the named instruction. Raised by exec's arms only; no arm raises it any more. Safe. -/
  | notModelled (mnemonic : String)
  /-- No complete packet is on the command port: no step, no response (R98; an idle engine between commands, R202,
  R217; notes/assumptions/5.md). Raised by step. Safe: the engine waits, and delivering the missing words lets it go
  on. -/
  | incompletePacket
  /-- Words of two packets overlap on the command port, which the spec leaves without a meaning (R218, R225, U1).
  Raised by step. Safe: no outcome is chosen (notes/assumptions/3.md). -/
  | overlappingPackets
deriving DecidableEq, Repr

/-- The context after reset (R49, R220): KIND = NONE, every other register 0, no word of either store is state. -/
def Context.reset : Context :=
  { kind := .none, n := 0, k := 0, epw := 0, kg := 0, p := 0, kp := 0, maxn := 0, m := 0, mainlen := 0, ovflen := 0,
    main := [], ovf := [] }

/-- The machine right after reset (R219, R220), with nothing on either port. The parameters are those of
`Params.spec` (DESIGN CHOICE, notes/assumptions/1.md). -/
def State.reset : State :=
  { ctx := Context.reset, params := Params.spec, cmdPort := [], portClash := false, respPort := [] }

/-- The outcome of a step or of a meaning. -/
abbrev Result := Host.Outcome State Fault Refusal

end Sys2Proof.Machine
end

