-- ==== Sys2Proof/Machine/Operands.lean ====
section
/-! DEFINITION. The arithmetic and the addressing of the shared bit-addressing primitive (spec/41_bit_primitive.md
sections 1 and 2), the slot addressing of V2 (spec/43_non_spanning_v2.md R148, R149), the kind codes of CREATE
(spec/30_encoding.md R80) and the entry width of the overflow store (spec/00_scope.md R16). All of it is exact
arithmetic on naturals (R18, R233). -/

namespace Sys2Proof.Machine

/-- `ceil(a, b)` (R18). -/
def ceilDiv (a b : Nat) : Nat := (a + b - 1) / b

/-- `bitsNeeded(v)` (R120): the index of the highest 1 bit plus one, and 1 for 0. -/
def bitsNeeded (v : Nat) : Nat := if v = 0 then 1 else 1 + v.log2

/-- `max(A)` in unsigned order, 0 for the empty sequence (R22, R119). -/
def maxOf : List Word → Nat
  | [] => 0
  | a :: rest => max a.toNat (maxOf rest)

/-- `mask(w) = 2^w - 1`, formed in the 64-bit accumulator (R19, R121). -/
def mask (w : Nat) : Acc := BitVec.ofNat 64 (2 ^ w - 1)

/-- Where a field or a slot begins: a word of the store and a bit of that word. -/
structure FieldPlace where
  wordIndex : Nat
  bitOffset : Nat
deriving DecidableEq, Repr

/-- `FieldAddr(w, i)` (R122), for the widths 1 to 33 that the primitive is used with (R124). -/
def fieldAddr (w i : Nat) : Except Fault FieldPlace :=
  if 1 ≤ w ∧ w ≤ 33 then .ok { wordIndex := i * w / 32, bitOffset := i * w % 32 } else .error .badWidth

/-- `SlotAddr(k, epw, i)` (R149), for slots of 1 to 32 bits of which `epw >= 1` fit one word (R148). -/
def slotAddr (k epw i : Nat) : Except Fault FieldPlace :=
  if 1 ≤ k ∧ 1 ≤ epw ∧ epw * k ≤ 32 then .ok { wordIndex := i / epw, bitOffset := i % epw * k }
  else .error .badWidth

/-- A field value as a 32-bit word: every value GET returns fits one (R139, R150, R174). -/
def toWord (v : Acc) : Except Fault Word := if v.toNat < 2 ^ 32 then .ok (v.setWidth 32) else .error .badWidth

/-- `OW` (R16): the width of one entry of the overflow store, for the global width `kg`. -/
def entryWidth (mode : OvfMode) (kg : Nat) : Nat :=
  match mode with
  | .kglobal => kg
  | .word => 32

/-- The codec a kind code selects (R80, R186); `none` for an unrecognized kind (R187). -/
def codecOfCode (c : Word) : Option Codec :=
  if c = 0#32 then some .spanning
  else if c = 1#32 then some .nonSpanning
  else if c = 2#32 then some .overflow
  else none

/-- The value of KIND for a codec (R26). -/
def kindOf : Codec → Kind
  | .spanning => .spanning
  | .nonSpanning => .nonSpanning
  | .overflow => .overflow

/-- The codec that KIND selects (R191); `none` for KIND = NONE. -/
def codecOfKind : Kind → Option Codec
  | .spanning => some .spanning
  | .nonSpanning => some .nonSpanning
  | .overflow => some .overflow
  | .none => none

/-- The number KIND holds (R26). -/
def kindCode : Kind → BitVec 2
  | .spanning => 0#2
  | .nonSpanning => 1#2
  | .overflow => 2#2
  | .none => 3#2

end Sys2Proof.Machine
end

