-- ==== Sys2Proof/Machine/Flags.lean ====
section
/-! DEFINITION. The flag of a V3 slot (spec/44_overflow_v3.md R160, R171). It is a bit of the data format and the only
flag there is: the block has no status flags, condition codes or sticky error bits (spec/10_state.md R38). -/

namespace Sys2Proof.Machine

/-- `MAXN = 2^p - 1` (R33): the largest value stored inline. -/
def maxInline (p : Nat) : Nat := 2 ^ p - 1

/-- Whether a value overflows: `value > MAXN`, unsigned and strict (R171, R178). -/
def overflows (p : Nat) (a : Word) : Bool := decide (maxInline p < a.toNat)

/-- The number of values above 2^p - 1: `nOv` of a candidate p (R164) and M of the chosen one (R173). R164 leaves the
counting method free and requires this number (DEDUCED, safe: notes/assumptions/11.md). -/
def countOverflows (p : Nat) (values : List Word) : Nat := values.countP (overflows p)

/-- The slot of an overflowing value, `2^P + e`: flag 1, payload the index e (R171). -/
def flaggedSlot (p e : Nat) : Acc := BitVec.ofNat 64 (2 ^ p + e)

/-- The slot of an inline value: flag 0, payload the value (R171). -/
def inlineSlot (a : Word) : Acc := a.setWidth 64

/-- The flag of a slot value: bit P (R160). -/
def slotFlag (p : Nat) (f : Acc) : Bool := f.getLsbD p

/-- The payload of a slot value: bits P-1 to 0 (R160, R174). -/
def slotPayload (p : Nat) (f : Acc) : Acc := f &&& mask p

end Sys2Proof.Machine
end

