-- ==== Sys2Proof/Machine/Ops.lean ====
section
/-! DEFINITION. The named operations every command is made of: word access to a store (spec/00_scope.md R20), field
access (spec/41_bit_primitive.md R125, R127), slot access (spec/43_non_spanning_v2.md R150, R151), responding and
raising an error (R21, spec/60_exceptions.md R205), and the moves of the host (R10). -/

namespace Sys2Proof.Machine

/-- `MemRead(S, j)` (R20) for a store of `len` words. A word at or above `len` is not state and no rule reads it
(R41). -/
def memRead (S : Store) (len j : Nat) : Except Fault Word :=
  if j < len then
    match S[j]? with
    | some v => .ok v
    | none => .error .absentWord
  else .error .absentWord

/-- `MemWrite(S, j, v)` (R20) on a store that a COMPRESS builds. -/
def memWrite (S : Store) (j : Nat) (v : Word) : Except Fault Store :=
  if j < S.length then .ok (S.set j v) else .error .absentWord

/-- The canonical form of the stores: each is a sequence of exactly as many words as its length register says, so that
equal stores are equal data (R41, notes/assumptions/9.md). -/
def Memory.wf (c : Context) : Bool := c.main.length == c.mainlen.toNat && c.ovf.length == c.ovflen.toNat

/-- A new store: `len` words, all 0 (R71). -/
def zeroStore (len : Nat) : Store := List.replicate len 0#32

/-- The high word of a window (R123): word `wi + 1` where it is in range, and 0 where it is not (R126 (a)). -/
def windowHigh (S : Store) (len wi : Nat) : Except Fault Word :=
  if wi + 1 < len then memRead S len (wi + 1) else .ok 0#32

/-- `FieldRead(S, w, i)` (R125), `len` the store's length register; both shifts are logical (R131). -/
def fieldRead (S : Store) (len w i : Nat) : Except Fault Acc := do
  let a ← fieldAddr w i
  let lo ← memRead S len a.wordIndex
  let hi ← windowHigh S len a.wordIndex
  let acc : Acc := hi.setWidth 64 <<< 32 ||| lo.setWidth 64
  return acc >>> a.bitOffset &&& mask w

/-- `FieldWrite(S, w, i, v)` (R127): the value is masked before it is shifted (R128) and ORed into one or two words;
the high half is written only where its word is in range (R130). -/
def fieldWrite (S : Store) (w i : Nat) (v : Acc) : Except Fault Store := do
  let a ← fieldAddr w i
  let acc : Acc := (v &&& mask w) <<< a.bitOffset
  let lo ← memRead S S.length a.wordIndex
  let S1 ← memWrite S a.wordIndex (lo ||| acc.setWidth 32)
  if a.wordIndex + 1 < S1.length then
    let hi ← memRead S1 S1.length (a.wordIndex + 1)
    memWrite S1 (a.wordIndex + 1) (hi ||| (acc >>> 32).setWidth 32)
  else return S1

/-- `SlotRead(k, epw, i)` (R150): one word of MAIN, a logical shift and the mask. -/
def slotRead (S : Store) (len k epw i : Nat) : Except Fault Acc := do
  let a ← slotAddr k epw i
  let lo ← memRead S len a.wordIndex
  return lo.setWidth 64 >>> a.bitOffset &&& mask k

/-- `SlotWrite(S, k, epw, i, v)` (R151). -/
def slotWrite (S : Store) (k epw i : Nat) (v : Acc) : Except Fault Store := do
  let a ← slotAddr k epw i
  let lo ← memRead S S.length a.wordIndex
  memWrite S a.wordIndex (lo ||| ((v &&& mask k) <<< a.bitOffset).setWidth 32)

/-- The status code of an error (R88). -/
def errorCode : Error → Word
  | .boundsError => 0x01#32
  | .configurationError => 0x02#32
  | .capacityError => 0x03#32
  | .noInstance => 0x04#32
  | .illegalCommand => 0x05#32

/-- The response packet of an abstract response (R86, R89): the status word R0, then the result words; the result of
SIZE low word first (R94). -/
def responseWords : Response → List Word
  | .ok => [0#32]
  | .okValue v => [0#32, v]
  | .okSize s => [0#32, s.extractLsb' 0 32, s.extractLsb' 32 32]
  | .okSeq values => 0#32 :: BitVec.ofNat 32 values.length :: values
  | .error e => [errorCode e]

/-- `respond(...)` (R21, R86): the command ends, and its response packet is on the response port. -/
def State.respond (s : State) (r : Response) : State := { s with respPort := s.respPort ++ [responseWords r] }

/-- `raise <Error>` (R21, R205): the block's one way of taking an exception. The command ends with the error's
response alone; no register and no store word is written, nothing is recorded (R201), no mode changes and control goes
nowhere (R206). There is no return from it: the next command is executed normally (R207). -/
def State.raise (s : State) (e : Error) : State := s.respond (.error e)

/-- The effect of a command that replaces the context (R63, R102, R185): the whole context at once. -/
def State.commit (s : State) (c : Context) : State := { s with ctx := c }

/-- The engine takes a packet off the command port (R73): the words after it stay. -/
def State.consume (s : State) (rest : List Word) : State := { s with cmdPort := rest }

/-- The outcome of a command whose state accesses gave `r`: the state `f` makes of the value, or the fault. -/
def finish {α : Type} (r : Except Fault α) (f : α → State) : Result :=
  match r with
  | .ok a => .next (f a)
  | .error e => .fault e

/-- Step 2 of the order of checks (R100, R118): a command that needs an instance raises NoInstance while KIND = NONE,
and is dispatched on KIND otherwise (R191). -/
def withInstance (s : State) (f : Codec → Result) : Result :=
  match codecOfKind s.ctx.kind with
  | none => .next (s.raise .noInstance)
  | some c => f c

/-- Host move (R10, R219): reset, between two steps (R222). The packet words on the command port are abandoned; the
parameters stay, and so do the responses already produced (DESIGN CHOICE, notes/assumptions/8.md). -/
def State.hostReset (s : State) : State := { State.reset with params := s.params, respPort := s.respPort }

/-- Host move (R10, R73): present the words of a packet after the words already presented. -/
def State.hostDeliver (s : State) (words : List Word) : State := { s with cmdPort := s.cmdPort ++ words }

/-- Host move outside the host's duties (R225, R237): overlap two packets on the command port. -/
def State.hostOverlap (s : State) : State := { s with portClash := true }

/-- Host move (R10, R86): take the oldest response packet; `none` where there is none. -/
def State.hostTake (s : State) : Option (List Word × State) :=
  match s.respPort with
  | [] => none
  | r :: rest => some (r, { s with respPort := rest })

end Sys2Proof.Machine
end

