-- ==== Sys2Proof/Machine/Access.lean ====
section
/-! DEFINITION. The three read-only commands: GET, DECOMPRESS and SIZE (spec/40_shared_contract.md R104 to R108), over
GET.V1 (spec/42_spanning_v1.md R139), GET.V2 (spec/43_non_spanning_v2.md R153) and GET.V3 (spec/44_overflow_v3.md
R174). -/

namespace Sys2Proof.Machine

/-- GET.V1 (R139). -/
def getSpanning (c : Context) (i : Nat) : Except Fault Word := do
  let f ← fieldRead c.main c.mainlen.toNat c.k.toNat i
  toWord f

/-- GET.V2 (R153). -/
def getNonSpanning (c : Context) (i : Nat) : Except Fault Word := do
  let f ← slotRead c.main c.mainlen.toNat c.k.toNat c.epw.toNat i
  toWord f

/-- GET.V3 (R174): the slot, its flag, and the payload or the overflow entry it names. -/
def getOverflow (mode : OvfMode) (c : Context) (i : Nat) : Except Fault Word := do
  let f ← fieldRead c.main c.mainlen.toNat c.kp.toNat i
  let payload := slotPayload c.p.toNat f
  if slotFlag c.p.toNat f then
    let entry ← fieldRead c.ovf c.ovflen.toNat (entryWidth mode c.kg.toNat) payload.toNat
    toWord entry
  else toWord payload

/-- `Element(i)` (R115): the one way an element is read from the packed state. -/
def element (mode : OvfMode) (c : Context) (i : Nat) : Codec → Except Fault Word
  | .spanning => getSpanning c i
  | .nonSpanning => getNonSpanning c i
  | .overflow => getOverflow mode c i

/-- The elements i, i + 1, ... of the packed state, in ascending order (R104). -/
def readElements (f : Nat → Except Fault Word) : Nat → Nat → Except Fault (List Word)
  | _, 0 => .ok []
  | i, count + 1 => do
    let v ← f i
    let rest ← readElements f (i + 1) count
    return v :: rest

/-- GET (R105): the unsigned bounds check (R106), then the element. -/
def execGet (index : Word) (s : State) : Result :=
  withInstance s fun c =>
    if s.ctx.n.toNat ≤ index.toNat then .next (s.raise .boundsError)
    else finish (element s.params.ovfMode s.ctx index.toNat c) fun v => s.respond (.okValue v)

/-- DECOMPRESS (R104): the N elements, ascending. -/
def execDecompress (s : State) : Result :=
  withInstance s fun c =>
    finish (readElements (fun i => element s.params.ovfMode s.ctx i c) 0 s.ctx.n.toNat) fun values =>
      s.respond (.okSeq values)

/-- The bits allocated (R107): `32 * (MAINLEN + OVFLEN)`, exact in 64 bits. -/
def sizeInBits (c : Context) : BitVec 64 := BitVec.ofNat 64 (32 * (c.mainlen.toNat + c.ovflen.toNat))

/-- SIZE (R107), one formula for the three kinds. -/
def execSize (s : State) : Result := withInstance s fun _ => .next (s.respond (.okSize (sizeInBits s.ctx)))

end Sys2Proof.Machine
end

