-- ==== Sys2Proof/Machine/Compress.lean ====
section
/-! DEFINITION. COMPRESS under the three kinds: COMPRESS.V1 (spec/42_spanning_v1.md R138), COMPRESS.V2
(spec/43_non_spanning_v2.md R152), the parameter search and COMPRESS.V3 (spec/44_overflow_v3.md R163, R173), and the
common part (spec/40_shared_contract.md R101, R102). -/

namespace Sys2Proof.Machine

/-- The loop of R138: field i, i + 1, ... of the store takes the values in turn. -/
def packFields (w : Nat) : Nat → List Word → Store → Except Fault Store
  | _, [], S => .ok S
  | i, a :: rest, S => do
    let S' ← fieldWrite S w i (a.setWidth 64)
    packFields w (i + 1) rest S'

/-- COMPRESS.V1 (R138): the new context, from the sequence alone. -/
def compressSpanning (values : List Word) : Except Fault Context := do
  let n := values.length
  let k := bitsNeeded (maxOf values)
  let len := ceilDiv (n * k) 32
  let S ← packFields k 0 values (zeroStore len)
  return { Context.reset with
    kind := .spanning, n := BitVec.ofNat 31 n, k := BitVec.ofNat 6 k, mainlen := BitVec.ofNat 32 len, main := S }

/-- The loop of R152: slot i, i + 1, ... of the store takes the values in turn. -/
def packSlots (k epw : Nat) : Nat → List Word → Store → Except Fault Store
  | _, [], S => .ok S
  | i, a :: rest, S => do
    let S' ← slotWrite S k epw i (a.setWidth 64)
    packSlots k epw (i + 1) rest S'

/-- COMPRESS.V2 (R152). -/
def compressNonSpanning (values : List Word) : Except Fault Context := do
  let n := values.length
  let k := bitsNeeded (maxOf values)
  let epw := 32 / k
  let len := ceilDiv n epw
  let S ← packSlots k epw 0 values (zeroStore len)
  return { Context.reset with
    kind := .nonSpanning, n := BitVec.ofNat 31 n, k := BitVec.ofNat 6 k, epw := BitVec.ofNat 6 epw,
    mainlen := BitVec.ofNat 32 len, main := S }

/-- Whether a candidate with `nOv` exceptions is valid: an overflow index fits in p bits (R165). -/
def candidateValid (p nOv : Nat) : Bool := decide (nOv = 0 ∨ bitsNeeded (nOv - 1) ≤ p)

/-- `Cost(p) = n*(1 + p) + nOv*kg` (R166), the documented cost model, not improved. -/
def candidateCost (n kg p nOv : Nat) : Nat := n * (1 + p) + nOv * kg

/-- What the search keeps between candidates. -/
structure Best where
  p : Nat
  cost : Nat
deriving DecidableEq, Repr

/-- One candidate of the search: it displaces the best so far if it is valid and strictly cheaper (R163, R167). -/
def tryCandidate (values : List Word) (kg : Nat) (best : Best) (p : Nat) : Best :=
  let nOv := countOverflows p values
  if candidateValid p nOv && decide (candidateCost values.length kg p nOv < best.cost) then
    { p := p, cost := candidateCost values.length kg p nOv }
  else best

/-- `Search(A)` (R163): the pair (kg, p). The candidates are 1 to kg-1, ascending; the baseline n*kg with p = kg is
what they must beat. The count is taken over the input itself, as R164 allows
(notes/assumptions/11.md). -/
def search (values : List Word) : Nat × Nat :=
  let kg := bitsNeeded (maxOf values)
  if values.length = 0 then (kg, kg)
  else (kg, ((List.range' 1 (kg - 1)).foldl (tryCandidate values kg) { p := kg, cost := values.length * kg }).p)

/-- The loop of Phase B (R171, R173), in the ORIGINAL order of the input: `i` the next slot, `e` the next overflow
index, `S` the new MAIN and `O` the new OVF. -/
def packOverflow (p ow : Nat) : Nat → Nat → List Word → Store → Store → Except Fault (Store × Store)
  | _, _, [], S, O => .ok (S, O)
  | i, e, a :: rest, S, O =>
    if overflows p a then do
      let O' ← fieldWrite O ow e (a.setWidth 64)
      let S' ← fieldWrite S (p + 1) i (flaggedSlot p e)
      packOverflow p ow (i + 1) (e + 1) rest S' O'
    else do
      let S' ← fieldWrite S (p + 1) i (inlineSlot a)
      packOverflow p ow (i + 1) e rest S' O

/-- COMPRESS.V3 (R173). -/
def compressOverflow (mode : OvfMode) (values : List Word) : Except Fault Context := do
  let n := values.length
  let (kg, p) := search values
  let m := countOverflows p values
  let ow := entryWidth mode kg
  let mainLen := ceilDiv (n * (p + 1)) 32
  let ovfLen := ceilDiv (m * ow) 32
  let (S, O) ← packOverflow p ow 0 0 values (zeroStore mainLen) (zeroStore ovfLen)
  return { Context.reset with
    kind := .overflow, n := BitVec.ofNat 31 n, kg := BitVec.ofNat 6 kg, p := BitVec.ofNat 6 p,
    kp := BitVec.ofNat 6 (p + 1), maxn := BitVec.ofNat 32 (maxInline p), m := BitVec.ofNat 31 m,
    mainlen := BitVec.ofNat 32 mainLen, ovflen := BitVec.ofNat 32 ovfLen, main := S, ovf := O }

/-- The dispatch of COMPRESS on KIND (R102). -/
def compressContext (mode : OvfMode) (values : List Word) : Codec → Except Fault Context
  | .spanning => compressSpanning values
  | .nonSpanning => compressNonSpanning values
  | .overflow => compressOverflow mode values

/-- COMPRESS (R100 to R103): NoInstance, then CapacityError, then the new context in one step. -/
def execCompress (values : List Word) (s : State) : Result :=
  withInstance s fun c =>
    if s.params.nmax.toNat < values.length then .next (s.raise .capacityError)
    else finish (compressContext s.params.ovfMode values c) fun ctx => (s.commit ctx).respond .ok

end Sys2Proof.Machine
end

