-- ==== Sys2Proof/Machine/Selector.lean ====
section
/-! DEFINITION. The codec selector, CREATE (spec/45_selector.md), and the fresh contexts it installs
(spec/10_state.md R48). -/

namespace Sys2Proof.Machine

/-- The fresh state of a kind (R48, R185): no compressed data, and the width registers at the values a COMPRESS of the
empty sequence leaves. -/
def freshContext : Codec → Context
  | .spanning => { Context.reset with kind := .spanning, k := 1 }
  | .nonSpanning => { Context.reset with kind := .nonSpanning, k := 1, epw := 32 }
  | .overflow => { Context.reset with kind := .overflow, kg := 1, p := 1, kp := 2, maxn := 1 }

/-- CREATE (R185). It needs no instance (R100); an unrecognized kind raises ConfigurationError and writes nothing
(R187), and a recognized one replaces the whole context (R189). -/
def execCreate (kind : Word) (s : State) : Result :=
  match codecOfCode kind with
  | none => .next (s.raise .configurationError)
  | some c => .next ((s.commit (freshContext c)).respond .ok)

end Sys2Proof.Machine
end

