-- ==== Sys2Proof/Machine/Dispatch.lean ====
section
/-! DEFINITION. The dispatch of a decoded command to its meaning, one arm for each row of spec/opcode_table.json. -/

namespace Sys2Proof.Machine

def exec (i : Instr) (s : State) : Host.Outcome State Fault Refusal :=
  match i with
  | .create kind => Sys2Proof.Machine.execCreate kind s
  | .compress values => Sys2Proof.Machine.execCompress values s
  | .decompress => Sys2Proof.Machine.execDecompress s
  | .get index => Sys2Proof.Machine.execGet index s
  | .size => Sys2Proof.Machine.execSize s

end Sys2Proof.Machine
end

