-- ==== Sys2Proof/Machine/Engine.lean ====
section
/-! DEFINITION. How the engine takes and runs one command packet (spec/30_encoding.md R73, R97, R98,
spec/40_shared_contract.md R100). -/

namespace Sys2Proof.Machine

/-- Run one packet (R100 step 1): a packet that decodes to `illegal` raises IllegalCommand in any state (R199), every
other one is executed. Words that are no packet have no step (R98). -/
def runPacket (packet : List Word) (s : State) : Result :=
  match decode packet with
  | .ok i => exec i s
  | .error .notOnePacket => .refused .incompletePacket
  | .error .illegalOpcode => .next (s.raise .illegalCommand)
  | .error .reservedBits => .next (s.raise .illegalCommand)
  | .error .operandNotZero => .next (s.raise .illegalCommand)

/-- Take the next complete packet off the command port and run it (R73). The whole packet is consumed, whatever comes
of the command (R78). Overlapping packets are refused (R225), and so is a port without a complete packet (R98). -/
def runNext (s : State) : Result :=
  if s.portClash then .refused .overlappingPackets
  else
    match takePacket s.cmdPort with
    | none => .refused .incompletePacket
    | some (packet, rest) => runPacket packet (s.consume rest)

/-- The state in which the words of one packet stand at the front of the command port, before the words already there,
and no overlap is recorded. -/
def placePacket (s : State) (packet : List Word) : State :=
  { s with cmdPort := packet ++ s.cmdPort, portClash := false }

end Sys2Proof.Machine
end

