-- ==== Sys2Proof/Machine/Step.lean ====
section
/-! DEFINITION. One step of the machine: one whole command, from the packet on the command port to the response on the
response port (spec/00_scope.md R9). -/

namespace Sys2Proof.Machine

/-- One transaction (R9): the next command packet is taken, decoded and executed. -/
def step (s : State) : Host.Outcome State Fault Refusal := runNext s

/-- `s` with the instruction whose bits are `w` (numbered as spec/opcode_table.json numbers them) presented next on the
command port (notes/assumptions/6.md). -/
def State.withFetchWord (s : State) (nbits w : Nat) : State := placePacket s (tableWords nbits w)

end Sys2Proof.Machine
end

