-- ==== Sys2Proof/Machine/Assembler.lean ====
section
/-! DEFINITION. The assembler syntax of spec/30_encoding.md R95 and R96: one command on a line, as text, and the packet
that the line stands for. The block itself sees packets only. -/

namespace Sys2Proof.Machine

/-- What one line stands for (R95): a command, or the words of a `.word` line as written. -/
inductive AsmLine where
  | command (i : Instr)
  | raw (words : List Word)
deriving DecidableEq, Repr

/-- The words of a line: one packet (R96), except that a `.word` line is whatever was written. -/
def AsmLine.words : AsmLine → List Word
  | .command i => encode i
  | .raw words => words

/-- The value of a digit in base 10 or 16; the letters of base 16 are admitted in both cases, which R95 leaves open
(DESIGN CHOICE, safe: notes/assumptions/14.md). -/
def digitOf (base : Nat) (c : Char) : Option Nat :=
  let v :=
    if 48 ≤ c.toNat ∧ c.toNat ≤ 57 then c.toNat - 48
    else if 65 ≤ c.toNat ∧ c.toNat ≤ 70 then c.toNat - 55
    else if 97 ≤ c.toNat ∧ c.toNat ≤ 102 then c.toNat - 87
    else base
  if v < base then some v else none

/-- The digits of a number, most significant first, after the value read so far. -/
def digitsOf (base acc : Nat) : List Char → Option Nat
  | [] => some acc
  | c :: rest =>
    match digitOf base c with
    | some d => digitsOf base (acc * base + d) rest
    | none => none

/-- A number of R95: decimal, or hexadecimal after `0x`; it is one 32-bit word. -/
def numberOf (t : List Char) : Option Word :=
  let n :=
    match t with
    | [] => none
    | '0' :: 'x' :: [] => none
    | '0' :: 'x' :: digits => digitsOf 16 0 digits
    | digits => digitsOf 10 0 digits
  match n with
  | some v => if v < 2 ^ 32 then some (BitVec.ofNat 32 v) else none
  | none => none

/-- The numbers of a list of tokens, if all are numbers. -/
def numbersOf : List (List Char) → Option (List Word)
  | [] => some []
  | t :: rest =>
    match numberOf t, numbersOf rest with
    | some v, some vs => some (v :: vs)
    | _, _ => none

/-- The tokens of a line, split at blanks, up to the comment (R95); `current` holds the token being read. -/
def tokensOf (current : List Char) : List Char → List (List Char)
  | [] => if current = [] then [] else [current]
  | c :: rest =>
    if c = ';' then (if current = [] then [] else [current])
    else if c = ' ' ∨ c = '\t' then
      if current = [] then tokensOf [] rest else current :: tokensOf [] rest
    else tokensOf (current ++ [c]) rest

/-- The kind code of a CREATE line: a name (R80), or `#` and a number. -/
def kindOperand : List Char → Option Word
  | ['S', 'P', 'A', 'N', 'N', 'I', 'N', 'G'] => some 0#32
  | ['N', 'O', 'N', '_', 'S', 'P', 'A', 'N', 'N', 'I', 'N', 'G'] => some 1#32
  | ['O', 'V', 'E', 'R', 'F', 'L', 'O', 'W'] => some 2#32
  | '#' :: number => numberOf number
  | _ => none

/-- The line that a list of tokens stands for (R95); `none` for what is no line of the syntax. R95 does not say what a
line without a command is: no tokens, a blank or a comment-only line, give `none` too, the same answer as for an
ill-formed line, since neither stands for a packet; and a `.word` line without numbers is the empty list of words
(DESIGN CHOICE, safe: notes/assumptions/14.md). -/
def lineOf : List (List Char) → Option AsmLine
  | [['C', 'R', 'E', 'A', 'T', 'E'], kind] => (kindOperand kind).map fun c => .command (.create c)
  | ['C', 'O', 'M', 'P', 'R', 'E', 'S', 'S'] :: values =>
    match numbersOf values with
    | some vs => if (Instr.compress vs).wf then some (.command (.compress vs)) else none
    | none => none
  | [['D', 'E', 'C', 'O', 'M', 'P', 'R', 'E', 'S', 'S']] => some (.command .decompress)
  | [['G', 'E', 'T'], index] => (numberOf index).map fun i => .command (.get i)
  | [['S', 'I', 'Z', 'E']] => some (.command .size)
  | ['.', 'w', 'o', 'r', 'd'] :: words => (numbersOf words).map .raw
  | _ => none

/-- The words of one line of a program (R95). -/
def assemble (line : String) : Option (List Word) := (lineOf (tokensOf [] line.toList)).map AsmLine.words

end Sys2Proof.Machine
end

