-- ==== Sys2Proof/Safety.lean ====
section
/-! DEFINITION. What a good state is: the flat bit space of a store (spec/20_memory.md R54), and the invariants of the
context (spec/10_state.md R44 to R47), which hold in every state reachable from reset; also the texts
that write a number (spec/30_encoding.md R95). -/

namespace Sys2Proof.Machine

/-- Bit `b` of a store's flat bit space (R54): bit `b mod 32` of word `b div 32`; positions past the store's end, which
are not state, count as 0. -/
def storeBit (S : Store) (b : Nat) : Bool := (S[b / 32]?.getD 0#32).getLsbD (b % 32)

/-- The unsigned number in the `w` bits of a store from position `pos` on, least significant bit first (R54). -/
def fieldNat (S : Store) (pos : Nat) : Nat → Nat
  | 0 => 0
  | w + 1 => fieldNat S pos w + if storeBit S (pos + w) then 2 ^ w else 0

/-- The digits `digits`, most significant first, write the number `v` in base `b`; a letter may stand in either case
(spec/30_encoding.md R95; notes/assumptions/14.md). -/
def WritesInBase (b : Nat) (digits : List Char) (v : Nat) : Prop :=
  digits ≠ [] ∧ ∃ values : List Nat, v = values.foldl (fun acc d => acc * b + d) 0 ∧
    List.Forall₂ (fun c d => d < b ∧ (c = d.digitChar ∨ c = d.digitChar.toUpper)) digits values

/-- The text `t` is a number of R95 for the word `v`: decimal, or hexadecimal after `0x`. -/
def NumberText (t : List Char) (v : Word) : Prop :=
  WritesInBase 10 t v.toNat ∨ ∃ digits, t = '0' :: 'x' :: digits ∧ WritesInBase 16 digits v.toNat

/-- The operands of a COMPRESS or `.word` line (R95): each number after one blank. -/
def operandText (numbers : List (List Char × Word)) : String :=
  String.ofList (numbers.flatMap fun a => ' ' :: a.1)

/-- KIND = NONE (R44): every other register holds 0 and no store word is state. -/
def NoInstanceInv (c : Context) : Prop := c = Context.reset

/-- KIND = SPANNING (R44, R45). -/
structure SpanningInv (c : Context) : Prop where
  width : 1 ≤ c.k.toNat ∧ c.k.toNat ≤ 32
  words : c.mainlen.toNat = ceilDiv (c.n.toNat * c.k.toNat) 32
  padding : ∀ b, c.n.toNat * c.k.toNat ≤ b → storeBit c.main b = false
  tight : 0 < c.n.toNat → c.k.toNat = 1 ∨ ∃ i < c.n.toNat, storeBit c.main (i * c.k.toNat + (c.k.toNat - 1)) = true
  unused : c.epw = 0 ∧ c.kg = 0 ∧ c.p = 0 ∧ c.kp = 0 ∧ c.maxn = 0 ∧ c.m = 0 ∧ c.ovflen = 0 ∧ c.ovf = []

/-- Where slot `i` of V2 begins in the flat bit space (R149). -/
def slotPos (k epw i : Nat) : Nat := 32 * (i / epw) + i % epw * k

/-- KIND = NON_SPANNING (R44, R46). -/
structure NonSpanningInv (c : Context) : Prop where
  width : 1 ≤ c.k.toNat ∧ c.k.toNat ≤ 32
  slots : c.epw.toNat = 32 / c.k.toNat
  words : c.mainlen.toNat = ceilDiv c.n.toNat c.epw.toNat
  padding : ∀ b, c.epw.toNat * c.k.toNat ≤ b % 32 → storeBit c.main b = false
  lastWord : ∀ i, c.n.toNat ≤ i → fieldNat c.main (slotPos c.k.toNat c.epw.toNat i) c.k.toNat = 0
  unused : c.kg = 0 ∧ c.p = 0 ∧ c.kp = 0 ∧ c.maxn = 0 ∧ c.m = 0 ∧ c.ovflen = 0 ∧ c.ovf = []

/-- The indices of the flagged slots of V3, in increasing order (R47, R160). -/
def flaggedSlots (c : Context) : List Nat :=
  (List.range c.n.toNat).filter fun i => storeBit c.main (i * c.kp.toNat + c.p.toNat)

/-- KIND = OVERFLOW (R44, R47). -/
structure OverflowInv (mode : OvfMode) (c : Context) : Prop where
  width : 1 ≤ c.p.toNat ∧ c.p.toNat ≤ c.kg.toNat ∧ c.kg.toNat ≤ 32
  slotWidth : c.kp.toNat = c.p.toNat + 1
  inlineMax : c.maxn.toNat = 2 ^ c.p.toNat - 1
  words : c.mainlen.toNat = ceilDiv (c.n.toNat * c.kp.toNat) 32
  padding : ∀ b, c.n.toNat * c.kp.toNat ≤ b → storeBit c.main b = false
  flagged : (flaggedSlots c).map (fun i => fieldNat c.main (i * c.kp.toNat) c.p.toNat) = List.range c.m.toNat
  indexFits : c.m.toNat ≤ 2 ^ c.p.toNat
  fallBack : c.p = c.kg → c.m = 0
  ovfWords : c.ovflen.toNat = ceilDiv (c.m.toNat * entryWidth mode c.kg.toNat) 32
  entries : ∀ e < c.m.toNat,
    c.maxn.toNat < fieldNat c.ovf (e * entryWidth mode c.kg.toNat) (entryWidth mode c.kg.toNat) ∧
    fieldNat c.ovf (e * entryWidth mode c.kg.toNat) (entryWidth mode c.kg.toNat) < 2 ^ c.kg.toNat
  ovfPadding : ∀ b, c.m.toNat * entryWidth mode c.kg.toNat ≤ b → storeBit c.ovf b = false
  empty : c.n = 0 → c.kg = 1 ∧ c.p = 1
  unused : c.k = 0 ∧ c.epw = 0

/-- The invariant of the context under the parameters (R44 to R47), with the canonical form of the stores (R41). -/
structure ContextInv (par : Params) (c : Context) : Prop where
  capacity : c.n.toNat ≤ par.nmax.toNat
  stores : Memory.wf c = true
  none : c.kind = .none → NoInstanceInv c
  spanning : c.kind = .spanning → SpanningInv c
  nonSpanning : c.kind = .nonSpanning → NonSpanningInv c
  overflow : c.kind = .overflow → OverflowInv par.ovfMode c

/-- The invariant of a state (R238): its parameters are legal and its context meets R44 to R47. -/
structure State.Inv (s : State) : Prop where
  params : s.params.wf = true
  ctx : ContextInv s.params s.ctx

/-- COMPRESS.V1's writes in an order of one's choice (R146): the field of each index in the list, in turn. -/
def writeFieldsInOrder (w : Nat) (values : List Word) : List Nat → Store → Except Fault Store
  | [], S => .ok S
  | i :: rest, S => do
    let S' ← fieldWrite S w i ((values[i]?.getD 0#32).setWidth 64)
    writeFieldsInOrder w values rest S'

/-- The block with the other entry width (R16): the same state under the mode `mode`. -/
def State.withMode (s : State) (mode : OvfMode) : State :=
  { s with params := { nmax := s.params.nmax, ovfMode := mode } }

/-- A complete packet is on the command port and no packets overlap there: the host has kept its duties (R237, R238),
so that a command can start (R73). -/
def State.Ready (s : State) : Prop := s.portClash = false ∧ (takePacket s.cmdPort).isSome = true

/-- A run that is safe: no packet of it, up to the `k`-th, ends in a fault (spec/93_implementation_defined.md: 'every
complete packet has a defined response in every reachable state'). -/
def SafeRun (k : Nat) (s : State) : Prop := ∀ f, Host.Core.run Sys2Proof.core k s ≠ .fault f

end Sys2Proof.Machine
end

