-- ==== Sys2Proof/Certificates/Slice0/Obligations.lean ====
section
/-! DEFINITION. The statements about the model, for the provers. Each docstring names the rule of spec/ it formalises, or
says what it rests on. The exact next state `(s.commit c).respond r` or `s.respond r` of a statement is its frame: every
field of the state that it does not name is unchanged. -/

open Sys2Proof Sys2Proof.Machine

/-! ## Packets -/

/-- spec/30_encoding.md section 2: the packet of every command that R74 admits, with every operand at every value,
decodes to that command, and is taken whole off the front of the command port. -/
def Obligations.DecodeOfEncodeGivesTheCommand : Prop :=
  ∀ i : Instr, i.wf = true →
    decode (encode i) = .ok i ∧ ∀ rest, takePacket (encode i ++ rest) = some (encode i, rest)

/-- spec/30_encoding.md section 2: words that decode to a command are that command's packet and no other, and the
command is one of R74. -/
def Obligations.EncodeOfDecodeGivesThePacket : Prop :=
  ∀ packet i, decode packet = .ok i → encode i = packet ∧ i.wf = true

/-- spec/30_encoding.md section 2 ('a head H is this command if and only if H & mask = match') and opcode_table.json:
a complete packet decodes to a command of a mnemonic exactly when its head matches that mnemonic's row. -/
def Obligations.DecodeAgreesWithTheOpcodeTable : Prop :=
  ∀ w0 w1 payload, payload.length = payloadLength w0 w1 → ∀ name,
    (∃ i, decode (w0 :: w1 :: payload) = .ok i ∧ mnemonicOf i = name) ↔
      ∃ row ∈ opcodeTable, row.mnemonic = name ∧ headOf w0 w1 &&& row.mask = row.pattern

/-- Words written out from the encodings of R81 to R85, one for each family, decode to the command they stand for. -/
def Obligations.ConcretePacketsDecode : Prop :=
  decode [0x01000000#32, 0x00000002#32] = .ok (.create 2#32) ∧
  decode [0x02000000#32, 0x00000002#32, 0x00000001#32, 0x00000020#32] = .ok (.compress [1#32, 32#32]) ∧
  decode [0x03000000#32, 0x00000000#32] = .ok .decompress ∧
  decode [0x04000000#32, 0xFFFFFFFF#32] = .ok (.get 0xFFFFFFFF#32) ∧
  decode [0x05000000#32, 0x00000000#32] = .ok .size

/-- spec/30_encoding.md section 6: the packet of each row of R95's table, with every number in every spelling that
`NumberText` names; a comment and a blank at the end change nothing; and (R96) every line that assembles begins with the
mnemonic of one well-formed command and is that command's one packet, or begins with `.word` and is the words of its
numbers. The blanks, the case of the letters and an empty `.word` line are the model's choice
(notes/assumptions/14.md). -/
def Obligations.EveryAssembledLineIsOnePacket : Prop :=
  assemble "CREATE SPANNING" = some [0x01000000#32, 0x00000000#32] ∧
  assemble "CREATE NON_SPANNING" = some [0x01000000#32, 0x00000001#32] ∧
  assemble "CREATE OVERFLOW" = some [0x01000000#32, 0x00000002#32] ∧
  assemble "COMPRESS" = some [0x02000000#32, 0x00000000#32] ∧
  assemble "DECOMPRESS" = some [0x03000000#32, 0x00000000#32] ∧
  assemble "SIZE" = some [0x05000000#32, 0x00000000#32] ∧
  (∀ t v, NumberText t v →
    assemble ("CREATE #" ++ String.ofList t) = some [0x01000000#32, v] ∧
    assemble ("GET " ++ String.ofList t) = some [0x04000000#32, v]) ∧
  (∀ numbers : List (List Char × Word), (∀ a ∈ numbers, NumberText a.1 a.2) →
    (numbers.length < 2 ^ 32 → assemble ("COMPRESS" ++ operandText numbers) =
      some (0x02000000#32 :: BitVec.ofNat 32 numbers.length :: numbers.map (·.2))) ∧
    assemble (".word" ++ operandText numbers) = some (numbers.map (·.2))) ∧
  (∀ line comment, assemble (line ++ ";" ++ comment) = assemble line ∧ assemble (line ++ " ") = assemble line) ∧
  ∀ line ws, assemble line = some ws →
    (∃ i operands, tokensOf [] line.toList = (mnemonicOf i).toList :: operands ∧ i.wf = true ∧ ws = encode i ∧
      takePacket ws = some (ws, []) ∧ decode ws = .ok i) ∨
    ∃ operands, tokensOf [] line.toList = ".word".toList :: operands ∧ numbersOf operands = some ws

/-- R91: a packet with opcode 0x00 or 0x06 to 0xFF is two words, decodes to `illegal`, and is answered with
IllegalCommand in every state. -/
def Obligations.IllegalOpcodeIsAnsweredAndChangesNothing : Prop :=
  ∀ s w0 w1 rest, s.portClash = false → s.cmdPort = w0 :: w1 :: rest → opcodeOf w0 = 0#8 ∨ 6#8 ≤ opcodeOf w0 →
    decode [w0, w1] = .error .illegalOpcode ∧
    step s = .next { s with cmdPort := rest, respPort := s.respPort ++ [[0x05#32]] }

/-- R90: reserved bits are not ignored. -/
def Obligations.ReservedBitsAreAnsweredAndChangeNothing : Prop :=
  ∀ s w0 w1 payload rest, s.portClash = false → s.cmdPort = w0 :: w1 :: (payload ++ rest) →
    payload.length = payloadLength w0 w1 → 1#8 ≤ opcodeOf w0 → opcodeOf w0 ≤ 5#8 →
    reservedOf w0 ≠ 0#24 ∨ ((opcodeOf w0 = 3#8 ∨ opcodeOf w0 = 5#8) ∧ w1 ≠ 0#32) →
    (∃ e, decode (w0 :: w1 :: payload) = .error e ∧ e ≠ .notOnePacket) ∧
    step s = .next { s with cmdPort := rest, respPort := s.respPort ++ [[0x05#32]] }

/-- R78: a step takes two words, or two and W1 words where the opcode is 0x02, whatever the other bits of W0, the state
and the outcome of the command are. -/
def Obligations.StepConsumesExactlyOnePacket : Prop :=
  ∀ s t w0 w1 rest, s.cmdPort = w0 :: w1 :: rest → step s = .next t →
    (if opcodeOf w0 = 2#8 then w1.toNat else 0) ≤ rest.length ∧
    t.cmdPort = rest.drop (if opcodeOf w0 = 2#8 then w1.toNat else 0)

/-- R98: an incomplete packet has no step and produces no response. That such a step is the refusal
`incompletePacket`, and that an empty port is treated the same way, is the model's choice (DEDUCED,
notes/assumptions/5.md). -/
def Obligations.IncompletePacketHasNoStep : Prop :=
  ∀ s, s.portClash = false →
    (s.cmdPort.length < 2 ∨ ∃ w0 w1 rest, s.cmdPort = w0 :: w1 :: rest ∧ opcodeOf w0 = 2#8 ∧ rest.length < w1.toNat) →
    step s = .refused .incompletePacket

/-- The model's way of refusing overlapping packets, as R218 and R225 ask: it is the model's choice that the overlap is
a field of the state (notes/assumptions/3.md). -/
def Obligations.OverlappingPacketsAreRefused : Prop :=
  ∀ s : State, step s.hostOverlap = .refused .overlappingPackets

/-- A step at a port whose next words are the packet of a well-formed command is that command's execution, the packet
taken off the port. -/
def Obligations.StepRunsTheDecodedCommand : Prop :=
  ∀ s i rest, i.wf = true → s.portClash = false → s.cmdPort = encode i ++ rest → step s = exec i (s.consume rest)

/-! ## Outcomes -/

/-- R100: the order of the checks, and an effect that does not fail after them. -/
def Obligations.ChecksAreMadeInOrder : Prop :=
  ∀ packet s,
    (∀ e, decode packet = .error e → e ≠ .notOnePacket → runPacket packet s = .next (s.raise .illegalCommand)) ∧
    ∀ i, decode packet = .ok i →
      ((∀ c, i ≠ .create c) → s.ctx.kind = .none → runPacket packet s = .next (s.raise .noInstance)) ∧
      (∀ c, i = .create c → 2 < c.toNat → runPacket packet s = .next (s.raise .configurationError)) ∧
      (∀ A, i = .compress A → s.ctx.kind ≠ .none → s.params.nmax.toNat < A.length →
        runPacket packet s = .next (s.raise .capacityError)) ∧
      (∀ j, i = .get j → s.ctx.kind ≠ .none → s.ctx.n.toNat ≤ j.toNat →
        runPacket packet s = .next (s.raise .boundsError)) ∧
      (s.Inv →
        ((∃ c, i = .create c ∧ c.toNat ≤ 2) ∨
          (s.ctx.kind ≠ .none ∧ ((∃ A, i = .compress A ∧ A.length ≤ s.params.nmax.toNat) ∨ i = .decompress ∨
            (∃ j, i = .get j ∧ j.toNat < s.ctx.n.toNat) ∨ i = .size))) →
        ∃ t tail, runPacket packet s = .next t ∧ t.respPort = s.respPort ++ [0x00#32 :: tail])

/-- R86 and R88: every command produces exactly one response packet, a status word of at most 5 first, and an error
response has no result words. -/
def Obligations.EveryStepAnswersOneResponsePacket : Prop :=
  ∀ s t, step s = .next t → ∃ r0 results, t.respPort = s.respPort ++ [r0 :: results] ∧ r0.toNat ≤ 5 ∧
    (r0 ≠ 0#32 → results = [])

/-- R205: an error writes no register and no store word; the response is the status word alone. -/
def Obligations.ErrorLeavesTheStateUntouched : Prop :=
  ∀ s t r0 results, step s = .next t → t.respPort = s.respPort ++ [r0 :: results] → r0 ≠ 0#32 →
    t.ctx = s.ctx ∧ results = []

/-- R118: an instance must exist. -/
def Obligations.WithoutAnInstanceNothingRuns : Prop :=
  ∀ s A i, s.ctx.kind = .none →
    exec (.compress A) s = .next { s with respPort := s.respPort ++ [[0x04#32]] } ∧
    exec .decompress s = .next { s with respPort := s.respPort ++ [[0x04#32]] } ∧
    exec (.get i) s = .next { s with respPort := s.respPort ++ [[0x04#32]] } ∧
    exec .size s = .next { s with respPort := s.respPort ++ [[0x04#32]] }

/-- spec/10_state.md R26, R51 and spec/45_selector.md R191: only CREATE writes KIND, only CREATE and COMPRESS write the
context, and no command writes the parameters. -/
def Obligations.OnlyCreateAndCompressWriteTheContext : Prop :=
  ∀ i s t, exec i s = .next t →
    t.params = s.params ∧ t.cmdPort = s.cmdPort ∧ t.portClash = s.portClash ∧
    ((∀ c, i ≠ .create c) → t.ctx.kind = s.ctx.kind) ∧
    ((∀ c, i ≠ .create c) → (∀ A, i ≠ .compress A) → t.ctx = s.ctx)

/-! ## CREATE -/

/-- R185, with the values of its table: the fresh context of each recognized kind, which a COMPRESS of the empty sequence
leaves as it is, and ConfigurationError with nothing written for every other kind. -/
def Obligations.CreateInstallsTheFreshContext : Prop :=
  ∀ s : State,
    exec (.create 0#32) s = .next { s with
      ctx := { kind := .spanning, n := 0, k := 1, epw := 0, kg := 0, p := 0, kp := 0, maxn := 0, m := 0, mainlen := 0,
               ovflen := 0, main := [], ovf := [] }, respPort := s.respPort ++ [[0x00#32]] } ∧
    exec (.create 1#32) s = .next { s with
      ctx := { kind := .nonSpanning, n := 0, k := 1, epw := 32, kg := 0, p := 0, kp := 0, maxn := 0, m := 0,
               mainlen := 0, ovflen := 0, main := [], ovf := [] }, respPort := s.respPort ++ [[0x00#32]] } ∧
    exec (.create 2#32) s = .next { s with
      ctx := { kind := .overflow, n := 0, k := 0, epw := 0, kg := 1, p := 1, kp := 2, maxn := 1, m := 0, mainlen := 0,
               ovflen := 0, main := [], ovf := [] }, respPort := s.respPort ++ [[0x00#32]] } ∧
    (∀ c t, c.toNat ≤ 2 → exec (.create c) s = .next t → exec (.compress []) t = .next (t.respond .ok)) ∧
    ∀ c : Word, 2 < c.toNat → exec (.create c) s = .next { s with respPort := s.respPort ++ [[0x02#32]] }

/-- R187: an unrecognized kind raises ConfigurationError and writes nothing, whether an instance existed or not. -/
def Obligations.UnrecognizedKindRaisesConfigurationError : Prop :=
  ∀ (s : State) (c : Word), c ≠ 0#32 → c ≠ 1#32 → c ≠ 2#32 →
    exec (.create c) s = .next { s with respPort := s.respPort ++ [[0x02#32]] }

/-- R190: what a successful CREATE leaves depends on the kind code alone. -/
def Obligations.CreateDependsOnTheKindAlone : Prop :=
  ∀ (c : Word) (s1 s2 : State), c.toNat ≤ 2 →
    ∃ ctx, exec (.create c) s1 = .next ((s1.commit ctx).respond .ok) ∧
      exec (.create c) s2 = .next ((s2.commit ctx).respond .ok)

/-! ## COMPRESS -/

/-- R101: above the capacity nothing changes and CapacityError is raised; up to it, in every kind, the COMPRESS
completes and keeps KIND. -/
def Obligations.CompressChecksTheCapacity : Prop :=
  ∀ (s : State) (A : List Word), s.ctx.kind ≠ .none →
    (s.params.nmax.toNat < A.length →
      exec (.compress A) s = .next { s with respPort := s.respPort ++ [[0x03#32]] }) ∧
    (A.length ≤ s.params.nmax.toNat →
      ∃ c, exec (.compress A) s = .next ((s.commit c).respond .ok) ∧ c.kind = s.ctx.kind)

/-- R138: COMPRESS.V1. The registers it writes, the zeroed ones, and the words of MAIN, bit for bit: field i holds A[i]
at bit position i*k, and every bit after the last field is 0. -/
def Obligations.CompressSpanningPacksEveryValue : Prop :=
  ∀ (s : State) (A : List Word), s.ctx.kind = .spanning → A.length ≤ s.params.nmax.toNat →
    ∃ c, exec (.compress A) s = .next ((s.commit c).respond .ok) ∧ c.kind = .spanning ∧
      c.n.toNat = A.length ∧ c.k.toNat = bitsNeeded (maxOf A) ∧
      c.mainlen.toNat = (A.length * bitsNeeded (maxOf A) + 31) / 32 ∧ c.main.length = c.mainlen.toNat ∧
      c.epw = 0 ∧ c.kg = 0 ∧ c.p = 0 ∧ c.kp = 0 ∧ c.maxn = 0 ∧ c.m = 0 ∧ c.ovflen = 0 ∧ c.ovf = [] ∧
      (∀ i (h : i < A.length),
        fieldNat c.main (i * bitsNeeded (maxOf A)) (bitsNeeded (maxOf A)) = A[i].toNat) ∧
      ∀ b, A.length * bitsNeeded (maxOf A) ≤ b → storeBit c.main b = false

/-- R152: COMPRESS.V2. Slot i of k bits, of which 32/k share a word, holds A[i]; every other bit is 0. -/
def Obligations.CompressNonSpanningPacksEveryValue : Prop :=
  ∀ (s : State) (A : List Word), s.ctx.kind = .nonSpanning → A.length ≤ s.params.nmax.toNat →
    ∃ c, exec (.compress A) s = .next ((s.commit c).respond .ok) ∧ c.kind = .nonSpanning ∧
      c.n.toNat = A.length ∧ c.k.toNat = bitsNeeded (maxOf A) ∧ c.epw.toNat = 32 / bitsNeeded (maxOf A) ∧
      c.mainlen.toNat = (A.length + c.epw.toNat - 1) / c.epw.toNat ∧ c.main.length = c.mainlen.toNat ∧
      c.kg = 0 ∧ c.p = 0 ∧ c.kp = 0 ∧ c.maxn = 0 ∧ c.m = 0 ∧ c.ovflen = 0 ∧ c.ovf = [] ∧
      (∀ i (h : i < A.length),
        fieldNat c.main (32 * (i / c.epw.toNat) + i % c.epw.toNat * c.k.toNat) c.k.toNat = A[i].toNat) ∧
      ∀ b, (∀ i < A.length, b < 32 * (i / c.epw.toNat) + i % c.epw.toNat * c.k.toNat ∨
          32 * (i / c.epw.toNat) + i % c.epw.toNat * c.k.toNat + c.k.toNat ≤ b) → storeBit c.main b = false

/-- R173: COMPRESS.V3, with the pair (kg, p) of the search. Slot i of p+1 bits holds 2^p + e for the overflowing value
with e overflowing values before it, and the value itself otherwise (R171); entry e of OVF is the e-th overflowing value
at the entry width (R172); every other bit of both stores is 0. -/
def Obligations.CompressOverflowPacksEveryValue : Prop :=
  ∀ (s : State) (A : List Word), s.ctx.kind = .overflow → A.length ≤ s.params.nmax.toNat →
    ∃ c kg p ow, search A = (kg, p) ∧ ow = (if s.params.ovfMode = .kglobal then kg else 32) ∧
      exec (.compress A) s = .next ((s.commit c).respond .ok) ∧ c.kind = .overflow ∧
      c.n.toNat = A.length ∧ c.kg.toNat = kg ∧ c.p.toNat = p ∧ c.kp.toNat = p + 1 ∧ c.maxn.toNat = 2 ^ p - 1 ∧
      c.m.toNat = A.countP (fun a => 2 ^ p - 1 < a.toNat) ∧ c.k = 0 ∧ c.epw = 0 ∧
      c.mainlen.toNat = (A.length * (p + 1) + 31) / 32 ∧ c.main.length = c.mainlen.toNat ∧
      c.ovflen.toNat = (c.m.toNat * ow + 31) / 32 ∧ c.ovf.length = c.ovflen.toNat ∧
      (∀ i (h : i < A.length), fieldNat c.main (i * (p + 1)) (p + 1) =
        if 2 ^ p - 1 < A[i].toNat then 2 ^ p + (A.take i).countP (fun a => 2 ^ p - 1 < a.toNat) else A[i].toNat) ∧
      (∀ e < c.m.toNat,
        (A.filter fun a => 2 ^ p - 1 < a.toNat)[e]? = some (BitVec.ofNat 32 (fieldNat c.ovf (e * ow) ow))) ∧
      (∀ b, A.length * (p + 1) ≤ b → storeBit c.main b = false) ∧
      ∀ b, c.m.toNat * ow ≤ b → storeBit c.ovf b = false

/-- R109: the context a COMPRESS leaves is a function of KIND, the sequence and the parameters alone. -/
def Obligations.CompressDependsOnKindAndInputAlone : Prop :=
  ∀ (s1 s2 : State) (A : List Word), s1.ctx.kind = s2.ctx.kind → s1.ctx.kind ≠ .none → s1.params = s2.params →
    A.length ≤ s1.params.nmax.toNat →
    ∃ c, exec (.compress A) s1 = .next ((s1.commit c).respond .ok) ∧
      exec (.compress A) s2 = .next ((s2.commit c).respond .ok)

/-- R146: the order of V1's field writes is not observable: every order of the indices builds the same MAIN. -/
def Obligations.WriteOrderIsNotObservable : Prop :=
  ∀ (A : List Word) (order : List Nat), order.Perm (List.range A.length) →
    ∃ S, packFields (bitsNeeded (maxOf A)) 0 A (zeroStore (ceilDiv (A.length * bitsNeeded (maxOf A)) 32)) = .ok S ∧
      writeFieldsInOrder (bitsNeeded (maxOf A)) A order
        (zeroStore (ceilDiv (A.length * bitsNeeded (maxOf A)) 32)) = .ok S

/-- R157 (f): V1 and V2 leave the same MAIN whenever K divides 32, and whenever everything fits the first word. -/
def Obligations.SpanningAndNonSpanningAgreeWhereNothingStraddles : Prop :=
  ∀ A : List Word, bitsNeeded (maxOf A) ∣ 32 ∨ A.length ≤ 32 / bitsNeeded (maxOf A) →
    ∃ c1 c2, compressSpanning A = .ok c1 ∧ compressNonSpanning A = .ok c2 ∧ c1.main = c2.main

/-- R57: the store capacities are enough for every state a successful COMPRESS produces. -/
def Obligations.StoreCapacitiesSuffice : Prop :=
  ∀ (s t : State) (A : List Word), s.ctx.kind ≠ .none → A.length ≤ s.params.nmax.toNat →
    exec (.compress A) s = .next t →
    t.ctx.mainlen.toNat ≤ (33 * s.params.nmax.toNat + 31) / 32 ∧ t.ctx.ovflen.toNat ≤ s.params.nmax.toNat

/-! ## The parameter search -/

/-- R167 (with R163, R165, R166 and R168): the search finds the valid candidate of least cost, if it is strictly cheaper
than the baseline, the smallest one in a tie, and p = kg otherwise. -/
def Obligations.SearchFindsTheCheapestValidWidth : Prop :=
  search [] = (1, 1) ∧
  ∀ A : List Word, A ≠ [] → ∃ kg p, search A = (kg, p) ∧ kg = bitsNeeded (maxOf A) ∧
    ((p = kg ∧ ∀ q, 1 ≤ q → q < kg → A.countP (fun a => 2 ^ q - 1 < a.toNat) ≤ 2 ^ q →
        A.length * kg ≤ A.length * (1 + q) + A.countP (fun a => 2 ^ q - 1 < a.toNat) * kg) ∨
     (1 ≤ p ∧ p < kg ∧ A.countP (fun a => 2 ^ p - 1 < a.toNat) ≤ 2 ^ p ∧
        A.length * (1 + p) + A.countP (fun a => 2 ^ p - 1 < a.toNat) * kg < A.length * kg ∧
        ∀ q, 1 ≤ q → q < kg → A.countP (fun a => 2 ^ q - 1 < a.toNat) ≤ 2 ^ q →
          A.length * (1 + p) + A.countP (fun a => 2 ^ p - 1 < a.toNat) * kg
              < A.length * (1 + q) + A.countP (fun a => 2 ^ q - 1 < a.toNat) * kg ∨
          (A.length * (1 + p) + A.countP (fun a => 2 ^ p - 1 < a.toNat) * kg
              = A.length * (1 + q) + A.countP (fun a => 2 ^ q - 1 < a.toNat) * kg ∧ p ≤ q)))

/-- R169 and R183, the spec's own inferences: every candidate has an exception; a search that wins keeps an element
inline and saves payload bits against V1; one that falls back has no exception. -/
def Obligations.SearchResultBounds : Prop :=
  ∀ A : List Word, A ≠ [] → ∃ kg p, search A = (kg, p) ∧ 1 ≤ p ∧ p ≤ kg ∧ kg ≤ 32 ∧
    (∀ q, 1 ≤ q → q < kg → 1 ≤ countOverflows q A) ∧
    (p < kg → countOverflows p A < A.length ∧ A.length * (p + 1) + countOverflows p A * kg < A.length * kg) ∧
    (p = kg → countOverflows p A = 0)

/-- R165: a candidate without exceptions is valid without test; for one exception or more the index test and the count
test are the same condition; a candidate that is not valid is discarded whatever its cost. -/
def Obligations.IndexFitsExactlyWhenCountFits : Prop :=
  (∀ p : Nat, candidateValid p 0 = true) ∧
  (∀ p nOv : Nat, 1 ≤ p → 1 ≤ nOv →
    (candidateValid p nOv = true ↔ bitsNeeded (nOv - 1) ≤ p) ∧
    (bitsNeeded (nOv - 1) ≤ p ↔ nOv - 1 ≤ 2 ^ p - 1) ∧ (candidateValid p nOv = true ↔ nOv ≤ 2 ^ p)) ∧
  ∀ (A : List Word) (kg p : Nat) (best : Best), 1 ≤ p → 2 ^ p < countOverflows p A → tryCandidate A kg best p = best

/-- R120: `bitsNeeded` is the least width of at least 1 that holds the value, 1 to 32 for a 32-bit value. -/
def Obligations.BitsNeededIsTheLeastWidth : Prop :=
  bitsNeeded 0 = 1 ∧ ∀ v : Nat, 1 ≤ bitsNeeded v ∧ v ≤ 2 ^ bitsNeeded v - 1 ∧
    (∀ w, 1 ≤ w → v ≤ 2 ^ w - 1 → bitsNeeded v ≤ w) ∧ (v < 2 ^ 32 → bitsNeeded v ≤ 32)

/-! ## The bit-addressing primitive -/

/-- R133, the spec's own inference: a field that was 0 reads back what was written, masked to its width. -/
def Obligations.FieldReadsBackWhatWasWritten : Prop :=
  ∀ (S : Store) (w i : Nat) (v : Acc), 1 ≤ w → w ≤ 33 → i * w + w ≤ 32 * S.length → fieldNat S (i * w) w = 0 →
    ∃ S', fieldWrite S w i v = .ok S' ∧ S'.length = S.length ∧ fieldRead S' S'.length w i = .ok (v &&& mask w)

/-- R134, the spec's own inference: a write to one field changes the reading of no other field. -/
def Obligations.FieldWriteKeepsEveryOtherField : Prop :=
  ∀ (S S' : Store) (w i j : Nat) (v : Acc), 1 ≤ w → w ≤ 33 → i * w + w ≤ 32 * S.length → j * w + w ≤ 32 * S.length →
    i ≠ j → fieldWrite S w i v = .ok S' →
    fieldRead S' S'.length w j = fieldRead S S.length w j ∧ ∃ f, fieldRead S S.length w j = .ok f

/-- R158, the spec's own inference, for the slots of V2: what was written into a zero slot is read back, and every other
slot reads as before. -/
def Obligations.SlotReadsBackAndKeepsEveryOtherSlot : Prop :=
  ∀ (S : Store) (k i : Nat) (v : Acc), 1 ≤ k → k ≤ 32 → i / (32 / k) < S.length →
    fieldNat S (slotPos k (32 / k) i) k = 0 →
    ∃ S', slotWrite S k (32 / k) i v = .ok S' ∧ S'.length = S.length ∧
      slotRead S' S'.length k (32 / k) i = .ok (v &&& mask k) ∧
      ∀ j, j ≠ i → slotRead S' S'.length k (32 / k) j = slotRead S S.length k (32 / k) j

/-! ## GET, DECOMPRESS, SIZE -/

/-- R108: the three read-only commands change nothing but the response port. -/
def Obligations.ReadOnlyCommandsChangeNothing : Prop :=
  ∀ i s t, (i = .decompress ∨ (∃ j, i = .get j) ∨ i = .size) → exec i s = .next t → ∃ r, t = s.respond r

/-- R105: the bounds check of GET; for every index below N the answer is Element(i) (R115), which is there. -/
def Obligations.GetChecksTheBounds : Prop :=
  ∀ (s : State) (i : Word), s.Inv → s.ctx.kind ≠ .none →
    (s.ctx.n.toNat ≤ i.toNat → exec (.get i) s = .next { s with respPort := s.respPort ++ [[0x01#32]] }) ∧
    (i.toNat < s.ctx.n.toNat → ∃ c v, s.ctx.kind = kindOf c ∧ element s.params.ovfMode s.ctx i.toNat c = .ok v ∧
      exec (.get i) s = .next { s with respPort := s.respPort ++ [[0x00#32, v]] })

/-- R106, the spec's own inference: the unsigned bounds test raises exactly for the indices that lie outside [0, N) as
signed numbers. -/
def Obligations.NegativeIndexIsOutOfBounds : Prop :=
  ∀ (s : State) (i : Word), s.ctx.kind ≠ .none →
    (exec (.get i) s = .next (s.raise .boundsError) ↔ ¬ (0 ≤ i.toInt ∧ i.toInt < s.ctx.n.toNat))

/-- R139: GET.V1 answers the field of width K at index i of MAIN. -/
def Obligations.GetSpanningAnswersTheField : Prop :=
  ∀ (s : State) (i : Word), s.Inv → s.ctx.kind = .spanning → i.toNat < s.ctx.n.toNat →
    exec (.get i) s =
      .next (s.respond (.okValue (BitVec.ofNat 32 (fieldNat s.ctx.main (i.toNat * s.ctx.k.toNat) s.ctx.k.toNat))))

/-- R153: GET.V2 answers slot i of MAIN. -/
def Obligations.GetNonSpanningAnswersTheSlot : Prop :=
  ∀ (s : State) (i : Word), s.Inv → s.ctx.kind = .nonSpanning → i.toNat < s.ctx.n.toNat →
    exec (.get i) s = .next (s.respond (.okValue (BitVec.ofNat 32
      (fieldNat s.ctx.main (32 * (i.toNat / s.ctx.epw.toNat) + i.toNat % s.ctx.epw.toNat * s.ctx.k.toNat)
        s.ctx.k.toNat))))

/-- R174: GET.V3 answers the payload of an unflagged slot, and the overflow entry that a flagged slot names. -/
def Obligations.GetOverflowFollowsTheFlag : Prop :=
  ∀ (s : State) (i : Word), s.Inv → s.ctx.kind = .overflow → i.toNat < s.ctx.n.toNat →
    ∃ payload ow, payload = fieldNat s.ctx.main (i.toNat * s.ctx.kp.toNat) s.ctx.p.toNat ∧
      ow = (if s.params.ovfMode = .kglobal then s.ctx.kg.toNat else 32) ∧
      (storeBit s.ctx.main (i.toNat * s.ctx.kp.toNat + s.ctx.p.toNat) = false →
        exec (.get i) s = .next (s.respond (.okValue (BitVec.ofNat 32 payload)))) ∧
      (storeBit s.ctx.main (i.toNat * s.ctx.kp.toNat + s.ctx.p.toNat) = true →
        payload < s.ctx.m.toNat ∧
        exec (.get i) s = .next (s.respond (.okValue (BitVec.ofNat 32 (fieldNat s.ctx.ovf (payload * ow) ow)))))

/-- R104 and R115: DECOMPRESS answers the N elements in ascending order, each the value GET answers for its index. -/
def Obligations.DecompressAnswersEveryElement : Prop :=
  ∀ s : State, s.Inv → s.ctx.kind ≠ .none →
    ∃ B : List Word, B.length = s.ctx.n.toNat ∧
      exec .decompress s = .next { s with respPort := s.respPort ++ [0x00#32 :: s.ctx.n.setWidth 32 :: B] } ∧
      ∀ i (h : i < B.length), exec (.get (BitVec.ofNat 32 i)) s = .next (s.respond (.okValue B[i]))

/-- R107: SIZE answers 32 * (MAINLEN + OVFLEN), exact in 64 bits, low word first. -/
def Obligations.SizeCountsTheAllocatedWords : Prop :=
  ∀ s : State, s.ctx.kind ≠ .none →
    exec .size s = .next { s with respPort := s.respPort ++
      [[0x00#32, BitVec.ofNat 32 (32 * (s.ctx.mainlen.toNat + s.ctx.ovflen.toNat)),
        BitVec.ofNat 32 (32 * (s.ctx.mainlen.toNat + s.ctx.ovflen.toNat) / 2 ^ 32)]] }

/-- R94: the two result words of SIZE, low word first, make up the exact size, and the high word stays below 64. -/
def Obligations.SizeResultFitsTwoWords : Prop :=
  ∀ s : State, s.Inv → s.ctx.kind ≠ .none →
    ∃ lo hi : Word, exec .size s = .next { s with respPort := s.respPort ++ [[0x00#32, lo, hi]] } ∧
      lo.toNat + 2 ^ 32 * hi.toNat = 32 * (s.ctx.mainlen.toNat + s.ctx.ovflen.toNat) ∧ hi.toNat < 64

/-! ## The laws of the codec -/

/-- R110: the round-trip law, for every state, every kind and every sequence the capacity admits. -/
def Obligations.CompressThenDecompressGivesTheInput : Prop :=
  ∀ (s : State) (c : Word) (A : List Word), c.toNat ≤ 2 → A.length ≤ s.params.nmax.toNat →
    ∃ t1 t2, exec (.create c) s = .next t1 ∧ exec (.compress A) t1 = .next t2 ∧
      exec .decompress t2 = .next (t2.respond (.okSeq A))

/-- R111: the random-access law. -/
def Obligations.CompressThenGetGivesTheElement : Prop :=
  ∀ (s : State) (A : List Word) (i : Nat) (h : i < A.length), s.ctx.kind ≠ .none → A.length ≤ s.params.nmax.toNat →
    ∃ t, exec (.compress A) s = .next t ∧ exec (.get (BitVec.ofNat 32 i)) t = .next (t.respond (.okValue A[i]))

/-- R112: the empty-input law. -/
def Obligations.EmptyInputGivesEmptyOutput : Prop :=
  ∀ s : State, s.ctx.kind ≠ .none →
    ∃ t, exec (.compress []) s = .next t ∧ exec .decompress t = .next (t.respond (.okSeq [])) ∧
      exec .size t = .next (t.respond (.okSize 0#64))

/-- R113, the spec's own inference: the size law of the three kinds. -/
def Obligations.SizeLaw : Prop :=
  ∀ (s : State) (A : List Word), s.ctx.kind ≠ .none → A.length ≤ s.params.nmax.toNat →
    ∃ t size, exec (.compress A) s = .next t ∧ exec .size t = .next (t.respond (.okSize (BitVec.ofNat 64 size))) ∧
      (s.ctx.kind = .spanning → size = 32 * ((A.length * bitsNeeded (maxOf A) + 31) / 32)) ∧
      (s.ctx.kind = .nonSpanning →
        size = 32 * ((A.length + 32 / bitsNeeded (maxOf A) - 1) / (32 / bitsNeeded (maxOf A)))) ∧
      (s.ctx.kind = .overflow →
        size = 32 * ((A.length * ((search A).2 + 1) + 31) / 32 +
          (countOverflows (search A).2 A * (if s.params.ovfMode = .kglobal then (search A).1 else 32) + 31) / 32))

/-- R114's counter-example: thirty-two zeros take 32 bits under SPANNING and 64 under OVERFLOW, so 'Overflow never worse'
is no law of the block. -/
def Obligations.OverflowCanBeWorseThanSpanning : Prop :=
  ∃ c1 c2, compressContext .kglobal (List.replicate 32 0#32) .spanning = .ok c1 ∧
    compressContext .kglobal (List.replicate 32 0#32) .overflow = .ok c2 ∧ sizeInBits c1 = 32#64 ∧ sizeInBits c2 = 64#64

/-- spec/00_scope.md section 4, R16: the entry width changes OVF and OVFLEN alone; GET and DECOMPRESS answer the same
under both modes. -/
def Obligations.EntryWidthModeIsNotSeenByReads : Prop :=
  ∀ (s : State) (A : List Word), s.ctx.kind ≠ .none → A.length ≤ s.params.nmax.toNat →
    ∃ t1 t2, exec (.compress A) (s.withMode .kglobal) = .next t1 ∧ exec (.compress A) (s.withMode .word) = .next t2 ∧
      { t1.ctx with ovf := [], ovflen := 0 } = { t2.ctx with ovf := [], ovflen := 0 } ∧
      (∀ i, ∃ r, exec (.get i) t1 = .next (t1.respond r) ∧ exec (.get i) t2 = .next (t2.respond r)) ∧
      ∃ r, exec .decompress t1 = .next (t1.respond r) ∧ exec .decompress t2 = .next (t2.respond r)

/-! ## Reset, invariants, safety -/

/-- R220: every piece of the block's state at its reset value. -/
def Obligations.ResetLeavesNoInstance : Prop :=
  State.reset.ctx = { kind := .none, n := 0, k := 0, epw := 0, kg := 0, p := 0, kp := 0, maxn := 0, m := 0,
                      mainlen := 0, ovflen := 0, main := [], ovf := [] } ∧
  ∀ s : State, s.hostReset.ctx = State.reset.ctx

/-- The reset state meets the invariant. -/
def Obligations.ResetMeetsTheInvariant : Prop := State.reset.Inv

/-- R44 to R47, which the spec derives for every reachable state: every step keeps the invariant of the context. -/
def Obligations.EveryStepKeepsTheInvariant : Prop :=
  ∀ s t : State, s.Inv → step s = .next t → t.Inv

/-- Every step keeps the canonical form of the stores, in every state (R41; notes/assumptions/9.md). -/
def Obligations.EveryStepKeepsTheStoresCanonical : Prop :=
  ∀ s t : State, Memory.wf s.ctx = true → step s = .next t → Memory.wf t.ctx = true

/-- spec/30_encoding.md R97 and spec/93_implementation_defined.md section 2: from every state that meets the invariant, a
complete packet has a response, and no step faults. -/
def Obligations.EveryCompletePacketIsAnswered : Prop :=
  ∀ s : State, s.Inv → s.Ready → ∃ t r, step s = .next t ∧ t.respPort = s.respPort ++ [responseWords r]

/-- No run of any length from a state that meets the invariant ends in a fault. -/
def Obligations.NoRunFaults : Prop :=
  ∀ (k : Nat) (s : State), s.Inv → SafeRun k s
end

