-- ==== Sys2Proof/Laws/Assembler.lean ====
section
/-! SUPPORT. What the functions of the assembler syntax do (spec/30_encoding.md R95): numbers, tokens and lines. -/

namespace Sys2Proof.Machine

/-- A digit of either base, its letter in either case, has its value (R95). -/
theorem digitOf_digitChar (b d : Nat) (c : Char) (hb : b = 10 ∨ b = 16) (hd : d < b)
    (hc : c = d.digitChar ∨ c = d.digitChar.toUpper) : digitOf b c = some d := by
  have h10 : ∀ d : Fin 10, digitOf 10 d.val.digitChar = some d.val ∧ digitOf 10 d.val.digitChar.toUpper = some d.val := by
    decide
  have h16 : ∀ d : Fin 16, digitOf 16 d.val.digitChar = some d.val ∧ digitOf 16 d.val.digitChar.toUpper = some d.val := by
    decide
  rcases hb with rfl | rfl <;> rcases hc with rfl | rfl
  · exact (h10 ⟨d, hd⟩).1
  · exact (h10 ⟨d, hd⟩).2
  · exact (h16 ⟨d, hd⟩).1
  · exact (h16 ⟨d, hd⟩).2

/-- The characters that no number holds: the blanks, the start of a comment, and the letter of the base mark. -/
theorem digit_not_special (b d : Nat) (c : Char) (hb : b = 10 ∨ b = 16) (hd : d < b)
    (hc : c = d.digitChar ∨ c = d.digitChar.toUpper) : c ≠ ';' ∧ c ≠ ' ' ∧ c ≠ '\t' ∧ c ≠ 'x' := by
  have h : ∀ d : Fin 16, (d.val.digitChar ≠ ';' ∧ d.val.digitChar ≠ ' ' ∧ d.val.digitChar ≠ '\t' ∧ d.val.digitChar ≠ 'x') ∧
      d.val.digitChar.toUpper ≠ ';' ∧ d.val.digitChar.toUpper ≠ ' ' ∧ d.val.digitChar.toUpper ≠ '\t' ∧
      d.val.digitChar.toUpper ≠ 'x' := by decide
  have hd16 : d < 16 := by omega
  rcases hc with rfl | rfl
  · exact (h ⟨d, hd16⟩).1
  · exact (h ⟨d, hd16⟩).2

/-- Reading digits gives the number they write (R95). -/
theorem digitsOf_eq (b acc : Nat) (digits : List Char) (values : List Nat) (hb : b = 10 ∨ b = 16)
    (h : List.Forall₂ (fun c d => d < b ∧ (c = d.digitChar ∨ c = d.digitChar.toUpper)) digits values) :
    digitsOf b acc digits = some (values.foldl (fun acc d => acc * b + d) acc) := by
  induction h generalizing acc with
  | nil => rfl
  | cons hd _ ih => simp [digitsOf, digitOf_digitChar b _ _ hb hd.1 hd.2, ih]

/-- Decimal digits are read in base 10 (R95). -/
theorem numberOf_decimal (t : List Char) (n : Nat) (h : digitsOf 10 0 t = some n) (ht : t ≠ []) (hx : 'x' ∉ t)
    (hn : n < 2 ^ 32) : numberOf t = some (BitVec.ofNat 32 n) := by
  unfold numberOf
  split <;> simp_all

/-- A text that writes a word is read as that word (R95). -/
theorem numberOf_text {t : List Char} {v : Word} (h : NumberText t v) : numberOf t = some v := by
  rcases h with ⟨hne, values, hv, hf⟩ | ⟨digits, rfl, hne, values, hv, hf⟩
  · have hd := digitsOf_eq 10 0 t values (.inl rfl) hf
    have hx : 'x' ∉ t := by
      intro hmem
      have hall : ∀ c ∈ t, c ≠ 'x' := by
        clear hne hv hd hmem
        induction hf with
        | nil => simp
        | cons hc _ ih =>
          intro c hcm
          rcases List.mem_cons.mp hcm with rfl | hcm
          · exact (digit_not_special 10 _ _ (.inl rfl) hc.1 hc.2).2.2.2
          · exact ih c hcm
      exact hall _ hmem rfl
    rw [numberOf_decimal t _ hd hne hx (by rw [← hv]; exact v.isLt), ← hv]
    simp
  · have hd := digitsOf_eq 16 0 digits values (.inr rfl) hf
    rw [← hv] at hd
    rcases digits with _ | ⟨c, rest⟩
    · exact absurd rfl hne
    · simp [numberOf, hd, v.isLt]

/-- The numbers of a list of texts (R95). -/
theorem numbersOf_text (numbers : List (List Char × Word)) (h : ∀ a ∈ numbers, NumberText a.1 a.2) :
    numbersOf (numbers.map (·.1)) = some (numbers.map (·.2)) := by
  induction numbers with
  | nil => rfl
  | cons a rest ih =>
    simp [numbersOf, numberOf_text (h a (by simp)), ih fun x hx => h x (by simp [hx])]

/-- A text that writes a word is not empty, and holds no blank and no start of a comment. -/
theorem numberText_token {t : List Char} {v : Word} (h : NumberText t v) :
    t ≠ [] ∧ ∀ c ∈ t, c ≠ ';' ∧ c ≠ ' ' ∧ c ≠ '\t' := by
  have hall : ∀ b, (b = 10 ∨ b = 16) → ∀ cs : List Char, ∀ ds : List Nat,
      List.Forall₂ (fun c d => d < b ∧ (c = d.digitChar ∨ c = d.digitChar.toUpper)) cs ds →
      ∀ c ∈ cs, c ≠ ';' ∧ c ≠ ' ' ∧ c ≠ '\t' := by
    intro b hb cs ds hf
    induction hf with
    | nil => simp
    | cons hc _ ih =>
      intro c hcm
      rcases List.mem_cons.mp hcm with rfl | hcm
      · have := digit_not_special b _ _ hb hc.1 hc.2
        exact ⟨this.1, this.2.1, this.2.2.1⟩
      · exact ih c hcm
  rcases h with ⟨hne, values, -, hf⟩ | ⟨digits, rfl, hne, values, -, hf⟩
  · exact ⟨hne, hall 10 (.inl rfl) _ _ hf⟩
  · refine ⟨by simp, fun c hc => ?_⟩
    rcases List.mem_cons.mp hc with rfl | hc
    · decide
    rcases List.mem_cons.mp hc with rfl | hc
    · decide
    exact hall 16 (.inr rfl) _ _ hf c hc

/-- A run of characters without a blank and without a comment belongs to the token being read (R95). -/
theorem tokensOf_append (w current rest : List Char) (h : ∀ c ∈ w, c ≠ ';' ∧ c ≠ ' ' ∧ c ≠ '\t') :
    tokensOf current (w ++ rest) = tokensOf (current ++ w) rest := by
  induction w generalizing current with
  | nil => simp
  | cons c w ih =>
    have hc := h c (by simp)
    simp [tokensOf, hc, ih (current ++ [c]) fun x hx => h x (by simp [hx])]

/-- The tokens of operands, each after one blank (R95). -/
theorem tokensOf_operands (tokens : List (List Char)) (current : List Char) (hcur : current ≠ [])
    (h : ∀ t ∈ tokens, t ≠ [] ∧ ∀ c ∈ t, c ≠ ';' ∧ c ≠ ' ' ∧ c ≠ '\t') :
    tokensOf current (tokens.flatMap fun t => ' ' :: t) = current :: tokens := by
  induction tokens generalizing current with
  | nil => simp [tokensOf, hcur]
  | cons t rest ih =>
    have ht := h t (by simp)
    simp only [List.flatMap_cons, List.cons_append, tokensOf]
    rw [if_neg (by decide), if_pos (by simp), if_neg hcur, tokensOf_append t [] _ ht.2, List.nil_append,
      ih t ht.1 fun x hx => h x (by simp [hx])]

/-- The tokens of a name and its numbers (R95). -/
theorem tokensOf_operandText (name : List Char) (hn : name ≠ []) (hs : ∀ c ∈ name, c ≠ ';' ∧ c ≠ ' ' ∧ c ≠ '\t')
    (numbers : List (List Char × Word)) (h : ∀ a ∈ numbers, NumberText a.1 a.2) :
    tokensOf [] (name ++ (operandText numbers).toList) = name :: numbers.map (·.1) := by
  have e : (operandText numbers).toList = (numbers.map (·.1)).flatMap fun t => ' ' :: t := by
    simp [operandText, List.flatMap_map]
  rw [tokensOf_append _ _ _ hs, List.nil_append, e, tokensOf_operands _ _ hn]
  intro t ht
  obtain ⟨a, ha, rfl⟩ := List.mem_map.mp ht
  exact numberText_token (h a ha)

/-- A comment ends the line (R95). -/
theorem tokensOf_comment (line comment current : List Char) :
    tokensOf current (line ++ ';' :: comment) = tokensOf current line := by
  induction line generalizing current with
  | nil => simp [tokensOf]
  | cons c line ih => simp only [List.cons_append, tokensOf, ih]

/-- A blank at the end of the line changes nothing. -/
theorem tokensOf_blank (line current : List Char) : tokensOf current (line ++ [' ']) = tokensOf current line := by
  induction line generalizing current with
  | nil => by_cases h : current = [] <;> simp [tokensOf, h]
  | cons c line ih => simp only [List.cons_append, tokensOf, ih]

/-- The rows of R95's table that have operands, as tokens. -/
theorem lineOf_create (number : List Char) :
    lineOf [['C', 'R', 'E', 'A', 'T', 'E'], '#' :: number] = (numberOf number).map fun c => .command (.create c) := rfl

theorem lineOf_compress {values : List (List Char)} {vs : List Word} (h : numbersOf values = some vs)
    (hl : vs.length < 2 ^ 32) :
    lineOf (['C', 'O', 'M', 'P', 'R', 'E', 'S', 'S'] :: values) = some (.command (.compress vs)) := by
  simp only [lineOf, h, Instr.wf, hl, decide_true, if_true]

theorem lineOf_get (index : List Char) :
    lineOf [['G', 'E', 'T'], index] = (numberOf index).map fun i => .command (.get i) := rfl

theorem lineOf_word (words : List (List Char)) :
    lineOf (['.', 'w', 'o', 'r', 'd'] :: words) = (numbersOf words).map .raw := rfl

/-- What a line can be (R95, R96): one well-formed command under its mnemonic, or the numbers of a `.word`. -/
theorem lineOf_some {tokens : List (List Char)} {l : AsmLine} (h : lineOf tokens = some l) :
    (∃ i operands, tokens = (mnemonicOf i).toList :: operands ∧ i.wf = true ∧ l = .command i) ∨
    ∃ operands ws, tokens = ".word".toList :: operands ∧ numbersOf operands = some ws ∧ l = .raw ws := by
  unfold lineOf at h
  split at h
  next kind =>
    obtain ⟨c, -, rfl⟩ := Option.map_eq_some_iff.mp h
    exact .inl ⟨.create c, [kind], by simp [mnemonicOf], rfl, rfl⟩
  next values =>
    split at h
    next vs _ =>
      split at h
      next hwf => cases h; exact .inl ⟨.compress vs, values, by simp [mnemonicOf], hwf, rfl⟩
      next => cases h
    next => cases h
  next => cases h; exact .inl ⟨.decompress, [], by simp [mnemonicOf], rfl, rfl⟩
  next index =>
    obtain ⟨i, -, rfl⟩ := Option.map_eq_some_iff.mp h
    exact .inl ⟨.get i, [index], by simp [mnemonicOf], rfl, rfl⟩
  next => cases h; exact .inl ⟨.size, [], by simp [mnemonicOf], rfl, rfl⟩
  next words =>
    obtain ⟨ws, hws, rfl⟩ := Option.map_eq_some_iff.mp h
    exact .inr ⟨words, ws, by simp, hws, rfl⟩
  next => cases h

end Sys2Proof.Machine
end

