-- ==== Sys2Proof/Laws/State.lean ====
section
/-! SUPPORT. One lemma for each field of the state under each of its updates, and the small facts of the reset state,
so that no later proof unfolds a record update. -/

namespace Sys2Proof.Machine

@[simp] theorem State.respond_ctx (s : State) (r : Response) : (s.respond r).ctx = s.ctx := rfl
@[simp] theorem State.respond_params (s : State) (r : Response) : (s.respond r).params = s.params := rfl
@[simp] theorem State.respond_cmdPort (s : State) (r : Response) : (s.respond r).cmdPort = s.cmdPort := rfl
@[simp] theorem State.respond_portClash (s : State) (r : Response) : (s.respond r).portClash = s.portClash := rfl
@[simp] theorem State.respond_respPort (s : State) (r : Response) : (s.respond r).respPort = s.respPort ++ [responseWords r] := rfl

@[simp] theorem State.raise_ctx (s : State) (e : Error) : (s.raise e).ctx = s.ctx := rfl
@[simp] theorem State.raise_params (s : State) (e : Error) : (s.raise e).params = s.params := rfl
@[simp] theorem State.raise_cmdPort (s : State) (e : Error) : (s.raise e).cmdPort = s.cmdPort := rfl
@[simp] theorem State.raise_portClash (s : State) (e : Error) : (s.raise e).portClash = s.portClash := rfl
@[simp] theorem State.raise_respPort (s : State) (e : Error) : (s.raise e).respPort = s.respPort ++ [[errorCode e]] := rfl

@[simp] theorem State.commit_ctx (s : State) (c : Context) : (s.commit c).ctx = c := rfl
@[simp] theorem State.commit_params (s : State) (c : Context) : (s.commit c).params = s.params := rfl
@[simp] theorem State.commit_cmdPort (s : State) (c : Context) : (s.commit c).cmdPort = s.cmdPort := rfl
@[simp] theorem State.commit_portClash (s : State) (c : Context) : (s.commit c).portClash = s.portClash := rfl
@[simp] theorem State.commit_respPort (s : State) (c : Context) : (s.commit c).respPort = s.respPort := rfl

@[simp] theorem State.consume_ctx (s : State) (rest : List Word) : (s.consume rest).ctx = s.ctx := rfl
@[simp] theorem State.consume_params (s : State) (rest : List Word) : (s.consume rest).params = s.params := rfl
@[simp] theorem State.consume_cmdPort (s : State) (rest : List Word) : (s.consume rest).cmdPort = rest := rfl
@[simp] theorem State.consume_portClash (s : State) (rest : List Word) : (s.consume rest).portClash = s.portClash := rfl
@[simp] theorem State.consume_respPort (s : State) (rest : List Word) : (s.consume rest).respPort = s.respPort := rfl

@[simp] theorem State.hostReset_ctx (s : State) : (s.hostReset).ctx = Context.reset := rfl
@[simp] theorem State.hostReset_params (s : State) : (s.hostReset).params = s.params := rfl
@[simp] theorem State.hostReset_cmdPort (s : State) : (s.hostReset).cmdPort = [] := rfl
@[simp] theorem State.hostReset_portClash (s : State) : (s.hostReset).portClash = false := rfl
@[simp] theorem State.hostReset_respPort (s : State) : (s.hostReset).respPort = s.respPort := rfl

@[simp] theorem State.hostDeliver_ctx (s : State) (words : List Word) : (s.hostDeliver words).ctx = s.ctx := rfl
@[simp] theorem State.hostDeliver_params (s : State) (words : List Word) : (s.hostDeliver words).params = s.params := rfl
@[simp] theorem State.hostDeliver_cmdPort (s : State) (words : List Word) : (s.hostDeliver words).cmdPort = s.cmdPort ++ words := rfl
@[simp] theorem State.hostDeliver_portClash (s : State) (words : List Word) : (s.hostDeliver words).portClash = s.portClash := rfl
@[simp] theorem State.hostDeliver_respPort (s : State) (words : List Word) : (s.hostDeliver words).respPort = s.respPort := rfl

@[simp] theorem State.hostOverlap_ctx (s : State) : (s.hostOverlap).ctx = s.ctx := rfl
@[simp] theorem State.hostOverlap_params (s : State) : (s.hostOverlap).params = s.params := rfl
@[simp] theorem State.hostOverlap_cmdPort (s : State) : (s.hostOverlap).cmdPort = s.cmdPort := rfl
@[simp] theorem State.hostOverlap_portClash (s : State) : (s.hostOverlap).portClash = true := rfl
@[simp] theorem State.hostOverlap_respPort (s : State) : (s.hostOverlap).respPort = s.respPort := rfl

@[simp] theorem placePacket_ctx (s : State) (packet : List Word) : (placePacket s packet).ctx = s.ctx := rfl
@[simp] theorem placePacket_params (s : State) (packet : List Word) : (placePacket s packet).params = s.params := rfl
@[simp] theorem placePacket_cmdPort (s : State) (packet : List Word) : (placePacket s packet).cmdPort = packet ++ s.cmdPort := rfl
@[simp] theorem placePacket_portClash (s : State) (packet : List Word) : (placePacket s packet).portClash = false := rfl
@[simp] theorem placePacket_respPort (s : State) (packet : List Word) : (placePacket s packet).respPort = s.respPort := rfl

/-- Two updates of different parts of the state commute. -/
theorem State.commit_respond (s : State) (c : Context) (r : Response) :
    (s.commit c).respond r = (s.respond r).commit c := rfl

theorem State.consume_respond (s : State) (rest : List Word) (r : Response) :
    (s.consume rest).respond r = (s.respond r).consume rest := rfl

@[simp] theorem State.reset_ctx : State.reset.ctx = Context.reset := rfl
@[simp] theorem State.reset_params : State.reset.params = Params.spec := rfl
@[simp] theorem State.reset_cmdPort : State.reset.cmdPort = [] := rfl
@[simp] theorem State.reset_portClash : State.reset.portClash = false := rfl
@[simp] theorem State.reset_respPort : State.reset.respPort = [] := rfl

/-- The stores of the reset state have their canonical form. -/
theorem Memory.wf_reset : Memory.wf State.reset.ctx = true := by decide

/-- The canonical form, as two equations of lengths. -/
theorem Memory.wf_iff (c : Context) :
    Memory.wf c = true ↔ c.main.length = c.mainlen.toNat ∧ c.ovf.length = c.ovflen.toNat := by
  simp [Memory.wf]

@[simp] theorem Codec.codecOfKind_kindOf (c : Codec) : codecOfKind (kindOf c) = some c := by cases c <;> rfl

/-- KIND selects a codec exactly when it holds that codec's value (R191). -/
theorem codecOfKind_eq_some (k : Kind) (c : Codec) : codecOfKind k = some c ↔ k = kindOf c := by
  cases k <;> cases c <;> simp [codecOfKind, kindOf]

/-- KIND selects no codec exactly when it is NONE (R118). -/
theorem codecOfKind_eq_none (k : Kind) : codecOfKind k = none ↔ k = .none := by
  cases k <;> simp [codecOfKind]

/-- The fresh context of a kind holds that kind. -/
@[simp] theorem freshContext_kind (c : Codec) : (freshContext c).kind = kindOf c := by cases c <;> rfl

end Sys2Proof.Machine
end

