-- ==== Sys2Proof/Laws/Bits.lean ====
section
/-! SUPPORT. The flat bit space of a store, the mask, and the widths: the facts of arithmetic that the laws of the
primitive are made of (spec/41_bit_primitive.md). -/

namespace Sys2Proof.Machine

/-- Bit `o` of word `j` is bit `32*j + o` of the flat bit space (R54). -/
theorem storeBit_word (S : Store) (j o : Nat) (ho : o < 32) :
    storeBit S (32 * j + o) = (S[j]?.getD 0#32).getLsbD o := by
  have h1 : (32 * j + o) / 32 = j := by omega
  have h2 : (32 * j + o) % 32 = o := by omega
  simp [storeBit, h1, h2]

/-- No bit past the store's end is set. -/
theorem storeBit_past_end (S : Store) (b : Nat) (h : 32 * S.length ≤ b) : storeBit S b = false := by
  have : S[b / 32]? = none := by
    rw [List.getElem?_eq_none_iff]
    omega
  simp [storeBit, this]

/-- A store of zero words has no bit set (R71). -/
@[simp] theorem storeBit_zeroStore (len b : Nat) : storeBit (zeroStore len) b = false := by
  unfold storeBit zeroStore
  rw [List.getElem?_replicate]
  split <;> simp

@[simp] theorem length_zeroStore (len : Nat) : (zeroStore len).length = len := by simp [zeroStore]

/-- Replacing one word changes the bits of that word and no others. -/
theorem storeBit_set (S : Store) (j : Nat) (v : Word) (hj : j < S.length) (b : Nat) :
    storeBit (S.set j v) b = if b / 32 = j then v.getLsbD (b % 32) else storeBit S b := by
  unfold storeBit
  by_cases h : b / 32 = j
  · subst h
    simp [hj]
  · have h' : ¬ j = b / 32 := fun e => h e.symm
    simp [h, h']

/-- The bits of the mask (R121). -/
theorem getLsbD_mask (w j : Nat) (hw : w ≤ 64) : (mask w).getLsbD j = decide (j < w) := by
  unfold mask
  rw [BitVec.getLsbD_ofNat, Nat.testBit_two_pow_sub_one]
  by_cases h : j < w
  · simp [h]
    omega
  · simp [h]

/-- Two stores with the same words' bits and the same length are the same store. -/
theorem store_ext (S T : Store) (hl : S.length = T.length) (hb : ∀ b, storeBit S b = storeBit T b) : S = T := by
  apply List.ext_getElem hl
  intro j h1 h2
  apply BitVec.eq_of_getLsbD_eq
  intro o ho
  have := hb (32 * j + o)
  rw [storeBit_word _ _ _ ho, storeBit_word _ _ _ ho] at this
  simpa [h1, h2] using this

/-- A number read from the store is below 2^w. -/
theorem fieldNat_lt (S : Store) (pos w : Nat) : fieldNat S pos w < 2 ^ w := by
  induction w with
  | zero => simp [fieldNat]
  | succ w ih =>
    simp only [fieldNat, pow_succ]
    split <;> omega

/-- The bits of a number read from the store (R54). -/
theorem testBit_fieldNat (S : Store) (pos w j : Nat) :
    (fieldNat S pos w).testBit j = (decide (j < w) && storeBit S (pos + j)) := by
  induction w with
  | zero => simp [fieldNat]
  | succ w ih =>
    simp only [fieldNat]
    split
    next h =>
      rw [Nat.add_comm]
      rcases Nat.lt_trichotomy j w with hj | hj | hj
      · rw [Nat.testBit_two_pow_add_gt hj, ih]
        simp [hj, Nat.lt_succ_of_lt hj]
      · subst hj
        rw [Nat.testBit_two_pow_add_eq, Nat.testBit_lt_two_pow (fieldNat_lt S pos j)]
        simp [h]
      · have hlt : 2 ^ w + fieldNat S pos w < 2 ^ j :=
          calc 2 ^ w + fieldNat S pos w < 2 ^ w + 2 ^ w := Nat.add_lt_add_left (fieldNat_lt S pos w) _
            _ = 2 ^ (w + 1) := by rw [pow_succ]; omega
            _ ≤ 2 ^ j := Nat.pow_le_pow_right (by omega) (by omega)
        rw [Nat.testBit_lt_two_pow hlt]
        have : ¬ j < w + 1 := by omega
        simp [this]
    next h =>
      rw [Nat.add_zero, ih]
      rcases Nat.lt_trichotomy j w with hj | hj | hj
      · simp [hj, Nat.lt_succ_of_lt hj]
      · subst hj
        simp at h
        simp [h]
      · have h1 : ¬ j < w := by omega
        have h2 : ¬ j < w + 1 := by omega
        simp [h1, h2]

/-- A number is the field it is compared with bit by bit. -/
theorem eq_fieldNat (S : Store) (pos w x : Nat) (hx : x < 2 ^ w)
    (h : ∀ j < w, x.testBit j = storeBit S (pos + j)) : x = fieldNat S pos w := by
  apply Nat.eq_of_testBit_eq
  intro j
  rw [testBit_fieldNat]
  by_cases hj : j < w
  · simp [hj, h j hj]
  · have : x < 2 ^ j := Nat.lt_of_lt_of_le hx (Nat.pow_le_pow_right (by omega) (by omega))
    simp [hj, Nat.testBit_lt_two_pow this]

/-- `bitsNeeded` is at least 1 (R120). -/
theorem one_le_bitsNeeded (v : Nat) : 1 ≤ bitsNeeded v := by
  unfold bitsNeeded
  split <;> omega

/-- A value fits its width (R120). -/
theorem lt_two_pow_bitsNeeded (v : Nat) : v < 2 ^ bitsNeeded v := by
  unfold bitsNeeded
  split
  · subst v; decide
  · rw [Nat.add_comm]
    exact Nat.lt_log2_self

/-- A width that holds the value is at least its `bitsNeeded` (R120). -/
theorem bitsNeeded_le (v w : Nat) (hw : 1 ≤ w) (h : v < 2 ^ w) : bitsNeeded v ≤ w := by
  unfold bitsNeeded
  split
  · exact hw
  next hv =>
    have : v.log2 < w := (Nat.log2_lt hv).mpr h
    omega

/-- Every element is at most the maximum (R22). -/
theorem le_maxOf {values : List Word} {a : Word} (h : a ∈ values) : a.toNat ≤ maxOf values := by
  induction values with
  | nil => simp at h
  | cons b rest ih =>
    simp only [maxOf]
    rcases List.mem_cons.mp h with rfl | h
    · exact Nat.le_max_left _ _
    · exact Nat.le_trans (ih h) (Nat.le_max_right _ _)

/-- The maximum is an element, or 0 for the empty sequence (R22). -/
theorem maxOf_mem (values : List Word) (h : values ≠ []) : ∃ a ∈ values, a.toNat = maxOf values := by
  induction values with
  | nil => exact absurd rfl h
  | cons b rest ih =>
    simp only [maxOf]
    by_cases hr : rest = []
    · subst hr
      exact ⟨b, by simp, by simp [maxOf]⟩
    · obtain ⟨a, ha, hm⟩ := ih hr
      rcases Nat.le_total b.toNat (maxOf rest) with hb | hb
      · exact ⟨a, by simp [ha], by omega⟩
      · exact ⟨b, by simp, by omega⟩

/-- The maximum of 32-bit values is a 32-bit value. -/
theorem maxOf_lt (values : List Word) : maxOf values < 2 ^ 32 := by
  by_cases h : values = []
  · subst h; decide
  · obtain ⟨a, -, ha⟩ := maxOf_mem values h
    rw [← ha]
    exact a.isLt

/-- The width of a sequence is 1 to 32 (R119). -/
theorem bitsNeeded_maxOf_le (values : List Word) : bitsNeeded (maxOf values) ≤ 32 :=
  bitsNeeded_le _ _ (by omega) (maxOf_lt values)

/-- Every value of a sequence fits the sequence's width (R119). -/
theorem lt_two_pow_width {values : List Word} {a : Word} (h : a ∈ values) :
    a.toNat < 2 ^ bitsNeeded (maxOf values) :=
  Nat.lt_of_le_of_lt (le_maxOf h) (lt_two_pow_bitsNeeded _)

/-- `ceil(a, b)` words of `b` bits hold `a` bits (R18). -/
theorem le_mul_ceilDiv (a b : Nat) (hb : 0 < b) : a ≤ b * ceilDiv a b := by
  unfold ceilDiv
  have h1 := Nat.div_add_mod (a + b - 1) b
  have h2 := Nat.mod_lt (a + b - 1) hb
  omega

/-- `ceil(a, b)` is the least number of words of `b` bits that hold `a` bits (R18). -/
theorem ceilDiv_le (a b c : Nat) (hb : 0 < b) (h : a ≤ b * c) : ceilDiv a b ≤ c := by
  unfold ceilDiv
  have : a + b - 1 < (c + 1) * b := by
    rw [Nat.add_mul, Nat.mul_comm c b]
    omega
  exact Nat.lt_succ_iff.mp ((Nat.div_lt_iff_lt_mul hb).mpr this)

@[simp] theorem ceilDiv_zero (b : Nat) : ceilDiv 0 b = 0 := by
  unfold ceilDiv
  rcases Nat.eq_zero_or_pos b with rfl | hb
  · rfl
  · rw [Nat.div_eq_of_lt]
    omega

end Sys2Proof.Machine
end

