-- ==== Sys2Proof/Laws/Primitive.lean ====
section
/-! SUPPORT. What each operation of the shared bit-addressing primitive and of the slot addressing can do, said once in
the flat bit space (spec/41_bit_primitive.md R125, R127, spec/43_non_spanning_v2.md R150, R151). -/

namespace Sys2Proof.Machine

/-- A word access in range gives the word (R20). -/
theorem memRead_ok (S : Store) (len j : Nat) (h : j < len) (hl : len ≤ S.length) :
    memRead S len j = .ok (S[j]?.getD 0#32) := by
  have : j < S.length := by omega
  simp [memRead, h, this]

/-- A word access out of range faults (R41). -/
theorem memRead_absent (S : Store) (len j : Nat) (h : len ≤ j) : memRead S len j = .error .absentWord := by
  have : ¬ j < len := by omega
  simp [memRead, this]

/-- A word write in range replaces that word. -/
theorem memWrite_ok (S : Store) (j : Nat) (v : Word) (h : j < S.length) : memWrite S j v = .ok (S.set j v) := by
  simp [memWrite, h]

/-- A word write that succeeds keeps the number of words: the canonical form of the stores. -/
theorem memWrite_length {S S' : Store} {j : Nat} {v : Word} (h : memWrite S j v = .ok S') :
    S'.length = S.length := by
  unfold memWrite at h
  split at h
  · cases h; simp
  · cases h

/-- The high word of the window: the next word, or 0 past the end (R123). -/
theorem windowHigh_ok (S : Store) (wi : Nat) : windowHigh S S.length wi = .ok (S[wi + 1]?.getD 0#32) := by
  unfold windowHigh
  split
  next h => exact memRead_ok S S.length (wi + 1) h le_rfl
  next h =>
    have : S[wi + 1]? = none := by
      rw [List.getElem?_eq_none_iff]
      omega
    simp [this]

/-- The bits of the window over words `wi` and `wi + 1` are the store's bits from `32*wi` on (R123). -/
theorem window_bit (S : Store) (wi t : Nat) (ht : t < 64) :
    ((S[wi + 1]?.getD 0#32).setWidth 64 <<< 32 ||| (S[wi]?.getD 0#32).setWidth 64 : Acc).getLsbD t
      = storeBit S (32 * wi + t) := by
  simp only [BitVec.getLsbD_or, BitVec.getLsbD_shiftLeft, BitVec.getLsbD_setWidth]
  by_cases h : t < 32
  · rw [storeBit_word S wi t h]
    simp [h, ht]
  · obtain ⟨o, rfl⟩ : ∃ o, t = 32 + o := ⟨t - 32, by omega⟩
    have ho : o < 32 := by omega
    have e : 32 * wi + (32 + o) = 32 * (wi + 1) + o := by omega
    rw [e, storeBit_word S (wi + 1) o ho]
    have h64 : o < 64 := by omega
    simp [ht, h64]

/-- FieldRead on a field that lies in the store gives the field's bits (R125). -/
theorem fieldRead_spec (S : Store) (w i : Nat) (hw : 1 ≤ w ∧ w ≤ 33) (hr : i * w + w ≤ 32 * S.length) :
    ∃ f, fieldRead S S.length w i = .ok f ∧ ∀ j, f.getLsbD j = (decide (j < w) && storeBit S (i * w + j)) := by
  have hwi : i * w / 32 < S.length := by omega
  refine ⟨((S[i * w / 32 + 1]?.getD 0#32).setWidth 64 <<< 32 ||| (S[i * w / 32]?.getD 0#32).setWidth 64)
    >>> (i * w % 32) &&& mask w, ?_, ?_⟩
  · unfold fieldRead
    simp only [fieldAddr, hw, and_self, if_true, memRead_ok S S.length _ hwi le_rfl, windowHigh_ok, bind, Except.bind,
      pure, Except.pure]
  · intro j
    rw [BitVec.getLsbD_and, BitVec.getLsbD_ushiftRight, getLsbD_mask w j (by omega)]
    by_cases hj : j < w
    · rw [window_bit S _ _ (by omega)]
      have e : 32 * (i * w / 32) + (i * w % 32 + j) = i * w + j := by omega
      simp [hj, e]
    · simp [hj]

/-- FieldRead as a number (R125). -/
theorem fieldRead_nat (S : Store) (w i : Nat) (hw : 1 ≤ w ∧ w ≤ 33) (hr : i * w + w ≤ 32 * S.length) :
    fieldRead S S.length w i = .ok (BitVec.ofNat 64 (fieldNat S (i * w) w)) := by
  obtain ⟨f, hf, hb⟩ := fieldRead_spec S w i hw hr
  rw [hf]
  congr 1
  apply BitVec.eq_of_getLsbD_eq
  intro j hj
  rw [hb, BitVec.getLsbD_ofNat, testBit_fieldNat]
  simp [hj]

/-- FieldWrite on a field that lies in the store ORs the value's low `w` bits into the field and changes no other bit
(R127). -/
theorem fieldWrite_spec (S : Store) (w i : Nat) (v : Acc) (hw : 1 ≤ w ∧ w ≤ 33)
    (hr : i * w + w ≤ 32 * S.length) :
    ∃ S', fieldWrite S w i v = .ok S' ∧ S'.length = S.length ∧
      ∀ b, storeBit S' b =
        (storeBit S b || (decide (i * w ≤ b ∧ b < i * w + w) && v.getLsbD (b - i * w))) := by
  have hwi : i * w / 32 < S.length := by omega
  have hbo : i * w % 32 < 32 := Nat.mod_lt _ (by omega)
  have hpos : 32 * (i * w / 32) + i * w % 32 = i * w := by omega
  generalize hW : i * w / 32 = wi at *
  generalize hB : i * w % 32 = bo at *
  generalize hacc : (v &&& mask w) <<< bo = acc
  have hbit : ∀ t, acc.getLsbD t = (decide (t < 64 ∧ bo ≤ t ∧ t - bo < w) && v.getLsbD (t - bo)) := by
    intro t
    rw [← hacc, BitVec.getLsbD_shiftLeft, BitVec.getLsbD_and, getLsbD_mask w _ (by omega)]
    by_cases h1 : t < 64 <;> by_cases h2 : t < bo <;> by_cases h3 : t - bo < w <;> simp [h1, h2, h3]
    all_goals omega
  unfold fieldWrite
  simp only [fieldAddr, hw, and_self, if_true, bind, Except.bind, hW, hB, hacc,
    memRead_ok S S.length _ hwi le_rfl, memWrite_ok S _ _ hwi, List.length_set]
  have hlo : ∀ b, b / 32 = wi → ((S[wi]?.getD 0#32) ||| acc.setWidth 32).getLsbD (b % 32)
      = (storeBit S b || (decide (i * w ≤ b ∧ b < i * w + w) && v.getLsbD (b - i * w))) := by
    intro b hb
    have hb' : b % 32 < 32 := Nat.mod_lt _ (by omega)
    have hS : storeBit S b = (S[wi]?.getD 0#32).getLsbD (b % 32) := by rw [storeBit, hb]
    rw [BitVec.getLsbD_or, BitVec.getLsbD_setWidth, hbit, hS]
    by_cases h1 : bo ≤ b % 32
    · have e : b % 32 - bo = b - i * w := by omega
      have h2 : (b % 32 - bo < w) ↔ b < i * w + w := by omega
      have h3 : i * w ≤ b := by omega
      have h4 : b % 32 < 64 := by omega
      simp [h1, h3, h4, hb', e, ← h2]
    · have h3 : ¬ i * w ≤ b := by omega
      simp [h1, h3]
  by_cases hhi : wi + 1 < S.length
  · have hS1 : wi + 1 < (S.set wi ((S[wi]?.getD 0#32) ||| acc.setWidth 32)).length := by simpa using hhi
    simp only [hhi, if_true]
    refine ⟨(S.set wi ((S[wi]?.getD 0#32) ||| acc.setWidth 32)).set (wi + 1)
      (((S.set wi ((S[wi]?.getD 0#32) ||| acc.setWidth 32))[wi + 1]?.getD 0#32) ||| (acc >>> 32).setWidth 32),
      ?_, ?_, ?_⟩
    · rw [memRead_ok _ _ _ hhi (by simp)]
      simp only
      rw [memWrite_ok _ _ _ hS1]
    · simp
    · intro b
      rw [storeBit_set _ _ _ hS1]
      by_cases hb : b / 32 = wi + 1
      · have hne : ¬ wi = wi + 1 := by omega
        have hb' : b % 32 < 32 := Nat.mod_lt _ (by omega)
        have hS : storeBit S b = (S[wi + 1]?.getD 0#32).getLsbD (b % 32) := by rw [storeBit, hb]
        rw [if_pos hb, BitVec.getLsbD_or, BitVec.getLsbD_setWidth, BitVec.getLsbD_ushiftRight, hbit, hS]
        have e : 32 + b % 32 - bo = b - i * w := by omega
        have h1 : bo ≤ 32 + b % 32 := by omega
        have h2 : 32 + b % 32 < 64 := by omega
        have h3 : i * w ≤ b := by omega
        have h4 : (b - i * w < w) ↔ b < i * w + w := by omega
        simp [hb', e, h1, h2, h3, h4]
      · rw [if_neg hb, storeBit_set _ _ _ hwi]
        by_cases hb2 : b / 32 = wi
        · rw [if_pos hb2, hlo b hb2]
        · have : ¬ (i * w ≤ b ∧ b < i * w + w) := by omega
          simp [hb2, this]
  · simp only [hhi, if_false]
    refine ⟨_, rfl, by simp, ?_⟩
    intro b
    rw [storeBit_set _ _ _ hwi]
    by_cases hb2 : b / 32 = wi
    · rw [if_pos hb2, hlo b hb2]
    · have : ¬ (i * w ≤ b ∧ b < i * w + w) := by omega
      simp [hb2, this]

/-- A FieldWrite that succeeds keeps the number of words: the canonical form of the stores. -/
theorem fieldWrite_length {S S' : Store} {w i : Nat} {v : Acc} (h : fieldWrite S w i v = .ok S') :
    S'.length = S.length := by
  unfold fieldWrite at h
  simp only [bind, Except.bind, pure, Except.pure] at h
  split at h
  · cases h
  split at h
  · cases h
  split at h
  · cases h
  next S1 h1 =>
    have e1 := memWrite_length h1
    split at h
    · split at h
      · cases h
      · rw [memWrite_length h, e1]
    · cases h
      exact e1

/-- A slot lies in one word: its place in the flat bit space, for the slot widths of V2 (R149). -/
theorem slot_place (k epw i : Nat) (he : 1 ≤ epw ∧ epw * k ≤ 32) :
    i % epw * k + k ≤ 32 ∧ slotPos k epw i = 32 * (i / epw) + i % epw * k := by
  refine ⟨?_, rfl⟩
  have h1 : i % epw + 1 ≤ epw := Nat.mod_lt _ (by omega)
  have h2 : (i % epw + 1) * k ≤ epw * k := Nat.mul_le_mul_right _ h1
  rw [Nat.add_mul, Nat.one_mul] at h2
  omega

/-- Two different slots lie in disjoint ranges of bits (R158). -/
theorem slot_disjoint (k epw i j : Nat) (he : 1 ≤ epw ∧ epw * k ≤ 32) (hij : i < j) :
    slotPos k epw i + k ≤ slotPos k epw j := by
  have hi := slot_place k epw i he
  unfold slotPos
  rcases Nat.lt_or_ge (i / epw) (j / epw) with h | h
  · omega
  · have hle : i / epw ≤ j / epw := Nat.div_le_div_right (Nat.le_of_lt hij)
    have heq : i / epw = j / epw := by omega
    have h1 := Nat.div_add_mod i epw
    have h2 := Nat.div_add_mod j epw
    rw [heq] at h1
    have h3 : i % epw + 1 ≤ j % epw := by omega
    have h4 : (i % epw + 1) * k ≤ j % epw * k := Nat.mul_le_mul_right _ h3
    rw [Nat.add_mul, Nat.one_mul] at h4
    rw [heq]
    omega

/-- SlotRead on a slot whose word is in the store gives the slot's bits (R150). -/
theorem slotRead_spec (S : Store) (k epw i : Nat) (hk : 1 ≤ k) (he : 1 ≤ epw ∧ epw * k ≤ 32)
    (hr : i / epw < S.length) :
    ∃ f, slotRead S S.length k epw i = .ok f ∧
      ∀ j, f.getLsbD j = (decide (j < k) && storeBit S (slotPos k epw i + j)) := by
  have hk32 : k ≤ 32 := Nat.le_trans (Nat.le_mul_of_pos_left k (by omega)) he.2
  have hp := slot_place k epw i he
  refine ⟨(S[i / epw]?.getD 0#32).setWidth 64 >>> (i % epw * k) &&& mask k, ?_, ?_⟩
  · unfold slotRead
    simp only [slotAddr, hk, he, and_self, if_true, memRead_ok S S.length _ hr le_rfl, bind, Except.bind, pure,
      Except.pure]
  · intro j
    rw [BitVec.getLsbD_and, BitVec.getLsbD_ushiftRight, getLsbD_mask k j (by omega), BitVec.getLsbD_setWidth]
    by_cases hj : j < k
    · have ho : i % epw * k + j < 32 := by omega
      have e : slotPos k epw i + j = 32 * (i / epw) + (i % epw * k + j) := by rw [slotPos]; omega
      rw [e, storeBit_word S _ _ ho]
      have : i % epw * k + j < 64 := by omega
      simp [hj, this]
    · simp [hj]

/-- SlotRead as a number (R150). -/
theorem slotRead_nat (S : Store) (k epw i : Nat) (hk : 1 ≤ k) (he : 1 ≤ epw ∧ epw * k ≤ 32)
    (hr : i / epw < S.length) :
    slotRead S S.length k epw i = .ok (BitVec.ofNat 64 (fieldNat S (slotPos k epw i) k)) := by
  obtain ⟨f, hf, hb⟩ := slotRead_spec S k epw i hk he hr
  rw [hf]
  congr 1
  apply BitVec.eq_of_getLsbD_eq
  intro j hj
  rw [hb, BitVec.getLsbD_ofNat, testBit_fieldNat]
  simp [hj]

/-- SlotWrite on a slot whose word is in the store ORs the value's low `k` bits into the slot and changes no other bit
(R151). -/
theorem slotWrite_spec (S : Store) (k epw i : Nat) (v : Acc) (hk : 1 ≤ k) (he : 1 ≤ epw ∧ epw * k ≤ 32)
    (hr : i / epw < S.length) :
    ∃ S', slotWrite S k epw i v = .ok S' ∧ S'.length = S.length ∧
      ∀ b, storeBit S' b =
        (storeBit S b || (decide (slotPos k epw i ≤ b ∧ b < slotPos k epw i + k) &&
          v.getLsbD (b - slotPos k epw i))) := by
  have hk32 : k ≤ 32 := Nat.le_trans (Nat.le_mul_of_pos_left k (by omega)) he.2
  have hp := slot_place k epw i he
  rw [hp.2]
  refine ⟨S.set (i / epw) ((S[i / epw]?.getD 0#32) ||| ((v &&& mask k) <<< (i % epw * k)).setWidth 32),
    ?_, ?_, ?_⟩
  · unfold slotWrite
    simp only [slotAddr, hk, he, and_self, if_true, memRead_ok S S.length _ hr le_rfl, bind, Except.bind]
    rw [memWrite_ok _ _ _ hr]
  · simp
  · intro b
    rw [storeBit_set _ _ _ hr]
    generalize i / epw = wi at *
    generalize i % epw * k = bo at *
    by_cases hb : b / 32 = wi
    · have hb' : b % 32 < 32 := Nat.mod_lt _ (by omega)
      have hS : storeBit S b = (S[wi]?.getD 0#32).getLsbD (b % 32) := by rw [storeBit, hb]
      rw [if_pos hb, BitVec.getLsbD_or, BitVec.getLsbD_setWidth, BitVec.getLsbD_shiftLeft, BitVec.getLsbD_and,
        getLsbD_mask k _ (by omega), hS]
      by_cases h1 : b % 32 < bo
      · have : ¬ (32 * wi + bo ≤ b ∧ b < 32 * wi + bo + k) := by omega
        simp [h1, this]
      · have e : b % 32 - bo = b - (32 * wi + bo) := by omega
        have h2 : (b % 32 - bo < k) ↔ b < 32 * wi + bo + k := by omega
        have h3 : 32 * wi + bo ≤ b := by omega
        have h4 : b % 32 < 64 := by omega
        simp [h1, h3, h4, hb', e, ← h2, Bool.and_comm]
    · have : ¬ (32 * wi + bo ≤ b ∧ b < 32 * wi + bo + k) := by omega
      simp [hb, this]

/-- A SlotWrite that succeeds keeps the number of words: the canonical form of the stores. -/
theorem slotWrite_length {S S' : Store} {k epw i : Nat} {v : Acc} (h : slotWrite S k epw i v = .ok S') :
    S'.length = S.length := by
  unfold slotWrite at h
  simp only [bind, Except.bind] at h
  repeat' split at h
  all_goals first
    | cases h
    | exact memWrite_length h

/-- A value that fits a word is the result word (R139). -/
theorem toWord_ok (x : Nat) (h : x < 2 ^ 32) : toWord (BitVec.ofNat 64 x) = .ok (BitVec.ofNat 32 x) := by
  have h64 : x < 2 ^ 64 := by omega
  have e : (BitVec.ofNat 64 x).toNat = x := by rw [BitVec.toNat_ofNat, Nat.mod_eq_of_lt h64]
  unfold toWord
  rw [e, if_pos h]
  congr 1
  apply BitVec.eq_of_toNat_eq
  simp

end Sys2Proof.Machine
end

