-- ==== Sys2Proof/Laws/Pack.lean ====
section
/-! SUPPORT. What the packing loops of COMPRESS leave in a store, said once (spec/42_spanning_v1.md R138,
spec/43_non_spanning_v2.md R152, spec/44_overflow_v3.md R171 to R173). -/

namespace Sys2Proof.Machine

/-- The loop of packFields over accumulator values: the common shape of every packing through FieldWrite. -/
def packAccs (w : Nat) : Nat → List Acc → Store → Except Fault Store
  | _, [], S => .ok S
  | i, v :: rest, S => do
    let S' ← fieldWrite S w i v
    packAccs w (i + 1) rest S'

/-- packFields is that loop over the zero-extended values. -/
theorem packFields_eq_packAccs (w i : Nat) (values : List Word) (S : Store) :
    packFields w i values S = packAccs w i (values.map (BitVec.setWidth 64)) S := by
  induction values generalizing i S with
  | nil => rfl
  | cons a rest ih => simp only [packFields, packAccs, List.map_cons, ih]

/-- The loop ORs every value into its field and changes no other bit. -/
theorem packAccs_spec (w : Nat) (hw : 1 ≤ w ∧ w ≤ 33) (vs : List Acc) (i : Nat) (S : Store)
    (hr : (i + vs.length) * w ≤ 32 * S.length) :
    ∃ S', packAccs w i vs S = .ok S' ∧ S'.length = S.length ∧
      (∀ b, b < i * w ∨ (i + vs.length) * w ≤ b → storeBit S' b = storeBit S b) ∧
      ∀ j (h : j < vs.length), ∀ t < w,
        storeBit S' ((i + j) * w + t) = (storeBit S ((i + j) * w + t) || vs[j].getLsbD t) := by
  induction vs generalizing i S with
  | nil => exact ⟨S, rfl, rfl, fun _ _ => rfl, fun j h => absurd h (by simp)⟩
  | cons v rest ih =>
    have hlen : (v :: rest).length = rest.length + 1 := rfl
    have hmul : (i + (rest.length + 1)) * w = (i + 1 + rest.length) * w := by congr 1; omega
    have hge : i * w + w ≤ (i + 1 + rest.length) * w := by
      have : (i + 1) * w ≤ (i + 1 + rest.length) * w := Nat.mul_le_mul_right _ (by omega)
      rwa [Nat.add_mul, Nat.one_mul] at this
    have h1 : (i + 1) * w = i * w + w := by rw [Nat.add_mul, Nat.one_mul]
    rw [hlen, hmul] at hr
    obtain ⟨S1, e1, l1, b1⟩ := fieldWrite_spec S w i v hw (by omega)
    obtain ⟨S2, e2, l2, o2, f2⟩ := ih (i + 1) S1 (by rw [l1]; exact hr)
    refine ⟨S2, ?_, by rw [l2, l1], ?_, ?_⟩
    · simp only [packAccs, bind, Except.bind, e1, e2]
    · intro b hb
      rw [hlen, hmul] at hb
      rw [o2 b (by omega), b1]
      have : ¬ (i * w ≤ b ∧ b < i * w + w) := by omega
      simp [this]
    · intro j hj t ht
      rcases j with _ | j
      · simp only [Nat.add_zero, List.getElem_cons_zero]
        rw [o2 _ (by omega), b1]
        simp [ht]
      · have e : i + (j + 1) = i + 1 + j := by omega
        have hj' : j < rest.length := by simpa using hj
        rw [e, List.getElem_cons_succ, f2 j hj' t ht, b1]
        have : ¬ (i * w ≤ (i + 1 + j) * w + t ∧ (i + 1 + j) * w + t < i * w + w) := by
          have : (i + 1) * w ≤ (i + 1 + j) * w := Nat.mul_le_mul_right _ (by omega)
          omega
        simp [this]

/-- Packing into a zeroed store that is large enough: every field holds its value's low `w` bits, and every bit after
the last field is 0. -/
theorem packAccs_zeroStore (w : Nat) (hw : 1 ≤ w ∧ w ≤ 33) (vs : List Acc) (len : Nat)
    (hr : vs.length * w ≤ 32 * len) :
    ∃ S, packAccs w 0 vs (zeroStore len) = .ok S ∧ S.length = len ∧
      (∀ b, vs.length * w ≤ b → storeBit S b = false) ∧
      (∀ j (h : j < vs.length), ∀ t < w, storeBit S (j * w + t) = vs[j].getLsbD t) ∧
      ∀ j (h : j < vs.length), fieldNat S (j * w) w = vs[j].toNat % 2 ^ w := by
  obtain ⟨S, e, l, o, f⟩ := packAccs_spec w hw vs 0 (zeroStore len) (by simpa using hr)
  have hbits : ∀ j (h : j < vs.length), ∀ t < w, storeBit S (j * w + t) = vs[j].getLsbD t := by
    intro j h t ht
    have := f j h t ht
    simpa using this
  refine ⟨S, e, by simpa using l, ?_, hbits, ?_⟩
  · intro b hb
    rw [o b (by simp [hb]), storeBit_zeroStore]
  · intro j h
    symm
    apply eq_fieldNat
    · exact Nat.mod_lt _ (Nat.two_pow_pos _)
    · intro t ht
      rw [hbits j h t ht, Nat.testBit_mod_two_pow]
      simp [ht, BitVec.getLsbD]

/-- COMPRESS.V1's loop into a zeroed store (R138): field j holds value j, and the bits after the last field are 0
(R143). -/
theorem packFields_zeroStore (w : Nat) (hw : 1 ≤ w ∧ w ≤ 33) (values : List Word) (len : Nat)
    (hr : values.length * w ≤ 32 * len) (hfit : ∀ a ∈ values, a.toNat < 2 ^ w) :
    ∃ S, packFields w 0 values (zeroStore len) = .ok S ∧ S.length = len ∧
      (∀ b, values.length * w ≤ b → storeBit S b = false) ∧
      ∀ j (h : j < values.length), fieldNat S (j * w) w = values[j].toNat := by
  obtain ⟨S, e, l, o, -, f⟩ := packAccs_zeroStore w hw (values.map (BitVec.setWidth 64)) len (by simpa using hr)
  refine ⟨S, by rw [packFields_eq_packAccs, e], l, by simpa using o, ?_⟩
  intro j h
  have h32 : values[j].toNat < 2 ^ 64 := Nat.lt_trans values[j].isLt (by decide)
  rw [f j (by simpa using h), List.getElem_map, BitVec.toNat_setWidth, Nat.mod_eq_of_lt h32]
  exact Nat.mod_eq_of_lt (hfit _ (List.getElem_mem h))

/-- COMPRESS.V2's loop ORs every value into its slot and changes no other bit. -/
theorem packSlots_spec (k epw : Nat) (hk : 1 ≤ k) (he : 1 ≤ epw ∧ epw * k ≤ 32) (values : List Word) (i : Nat)
    (S : Store) (hr : i + values.length ≤ epw * S.length) :
    ∃ S', packSlots k epw i values S = .ok S' ∧ S'.length = S.length ∧
      (∀ b, (∀ j < values.length, ¬ (slotPos k epw (i + j) ≤ b ∧ b < slotPos k epw (i + j) + k)) →
        storeBit S' b = storeBit S b) ∧
      ∀ j (h : j < values.length), ∀ t < k,
        storeBit S' (slotPos k epw (i + j) + t) =
          (storeBit S (slotPos k epw (i + j) + t) || values[j].getLsbD t) := by
  induction values generalizing i S with
  | nil => exact ⟨S, rfl, rfl, fun _ _ => rfl, fun j h => absurd h (by simp)⟩
  | cons a rest ih =>
    have hlen : (a :: rest).length = rest.length + 1 := rfl
    have hin : i / epw < S.length := by
      rw [hlen] at hr
      exact Nat.div_lt_of_lt_mul (by omega)
    obtain ⟨S1, e1, l1, b1⟩ := slotWrite_spec S k epw i (a.setWidth 64) hk he hin
    obtain ⟨S2, e2, l2, o2, f2⟩ := ih (i + 1) S1 (by rw [l1]; rw [hlen] at hr; omega)
    have hlater : ∀ j, slotPos k epw i + k ≤ slotPos k epw (i + 1 + j) := fun j =>
      slot_disjoint k epw i (i + 1 + j) he (by omega)
    refine ⟨S2, ?_, by rw [l2, l1], ?_, ?_⟩
    · simp only [packSlots, bind, Except.bind, e1, e2]
    · intro b hb
      rw [o2 b, b1]
      · have := hb 0 (by simp)
        rw [Nat.add_zero] at this
        simp [this]
      · intro j hj
        have := hb (j + 1) (by rw [hlen]; omega)
        have e : i + (j + 1) = i + 1 + j := by omega
        rwa [e] at this
    · intro j hj t ht
      have hk32 : k ≤ 32 := Nat.le_trans (Nat.le_mul_of_pos_left k (by omega)) he.2
      rcases j with _ | j
      · simp only [Nat.add_zero, List.getElem_cons_zero]
        rw [o2, b1]
        · have h64 : t < 64 := by omega
          simp [ht, h64]
        · intro j _
          have := hlater j
          omega
      · have e : i + (j + 1) = i + 1 + j := by omega
        have hj' : j < rest.length := by simpa using hj
        rw [e, List.getElem_cons_succ, f2 j hj' t ht, b1]
        have := hlater j
        have : ¬ (slotPos k epw i ≤ slotPos k epw (i + 1 + j) + t ∧
            slotPos k epw (i + 1 + j) + t < slotPos k epw i + k) := by omega
        simp [this]

/-- COMPRESS.V2's loop into a zeroed store (R152): slot j holds value j, and every bit of no slot below the sequence's
length is 0 (R156). -/
theorem packSlots_zeroStore (k epw : Nat) (hk : 1 ≤ k) (he : 1 ≤ epw ∧ epw * k ≤ 32) (values : List Word) (len : Nat)
    (hr : values.length ≤ epw * len) (hfit : ∀ a ∈ values, a.toNat < 2 ^ k) :
    ∃ S, packSlots k epw 0 values (zeroStore len) = .ok S ∧ S.length = len ∧
      (∀ b, (∀ j < values.length, ¬ (slotPos k epw j ≤ b ∧ b < slotPos k epw j + k)) → storeBit S b = false) ∧
      ∀ j (h : j < values.length), fieldNat S (slotPos k epw j) k = values[j].toNat := by
  obtain ⟨S, e, l, o, f⟩ := packSlots_spec k epw hk he values 0 (zeroStore len) (by simpa using hr)
  refine ⟨S, e, by simpa using l, ?_, ?_⟩
  · intro b hb
    rw [o b (by simpa using hb), storeBit_zeroStore]
  · intro j h
    symm
    apply eq_fieldNat _ _ _ _ (hfit _ (List.getElem_mem h))
    intro t ht
    have := f j h t ht
    simp only [Nat.zero_add, storeBit_zeroStore, Bool.false_or] at this
    rw [this]
    rfl

/-- The slot values of Phase B (R171): `e` is the overflow index the next overflowing value takes. -/
def slotValues (p : Nat) : Nat → List Word → List Acc
  | _, [] => []
  | e, a :: rest => if overflows p a then flaggedSlot p e :: slotValues p (e + 1) rest else inlineSlot a :: slotValues p e rest

/-- The overflow table of Phase B (R171, R172): the overflowing values, in encounter order. -/
def overflowTable (p : Nat) (values : List Word) : List Word := values.filter (overflows p)

@[simp] theorem length_slotValues (p e : Nat) (values : List Word) : (slotValues p e values).length = values.length := by
  induction values generalizing e with
  | nil => rfl
  | cons a rest ih =>
    simp only [slotValues]
    split <;> simp [ih]

/-- M, the count of R173, is the length of the overflow table. -/
theorem length_overflowTable (p : Nat) (values : List Word) :
    (overflowTable p values).length = countOverflows p values := by
  rw [overflowTable, countOverflows, List.countP_eq_length_filter]

/-- The slot of element j: the number of earlier overflowing elements if it overflows, its value if it does not
(R171). -/
theorem slotValues_getElem (p e : Nat) (values : List Word) (j : Nat) (h : j < values.length) :
    (slotValues p e values)[j]'(by simpa using h) =
      if overflows p values[j] then flaggedSlot p (e + countOverflows p (values.take j)) else inlineSlot values[j] := by
  induction values generalizing e j with
  | nil => exact absurd h (by simp)
  | cons a rest ih =>
    rcases j with _ | j
    · by_cases ha : overflows p a <;> simp [slotValues, ha, countOverflows]
    · have hj : j < rest.length := by simpa using h
      by_cases ha : overflows p a
      · have := ih (e + 1) j hj
        simp [slotValues, ha, countOverflows, this]
        congr 2
        omega
      · have := ih e j hj
        simp [slotValues, ha, countOverflows, this]

/-- The entry of the overflow table that element j takes is element j (R171). -/
theorem overflowTable_getElem (p : Nat) (values : List Word) (j : Nat) (h : j < values.length)
    (ho : overflows p values[j] = true) :
    (overflowTable p values)[countOverflows p (values.take j)]? = some values[j] := by
  induction values generalizing j with
  | nil => exact absurd h (by simp)
  | cons a rest ih =>
    rcases j with _ | j
    · simp only [List.getElem_cons_zero] at ho
      simp [overflowTable, ho, countOverflows]
    · have hj : j < rest.length := by simpa using h
      have ho' : overflows p rest[j] = true := by simpa using ho
      have := ih j hj ho'
      by_cases ha : overflows p a <;> simpa [overflowTable, ha, countOverflows] using this

/-- The loop of Phase B is the packing of the slot values into MAIN and of the overflow table into OVF: its two stores
are distinct, so its writes to each keep their order. -/
theorem packOverflow_eq (p ow : Nat) (values : List Word) (i e : Nat) (S O S' O' : Store)
    (hS : packAccs (p + 1) i (slotValues p e values) S = .ok S')
    (hO : packFields ow e (overflowTable p values) O = .ok O') :
    packOverflow p ow i e values S O = .ok (S', O') := by
  induction values generalizing i e S O with
  | nil =>
    simp only [slotValues, packAccs, overflowTable, List.filter_nil, packFields, Except.ok.injEq] at hS hO
    simp [packOverflow, hS, hO]
  | cons a rest ih =>
    by_cases ha : overflows p a
    · simp only [slotValues, ha, if_true, packAccs, bind, Except.bind] at hS
      simp only [overflowTable, List.filter_cons, ha, if_true, packFields, bind, Except.bind] at hO
      split at hS
      · cases hS
      next S1 h1 =>
      split at hO
      · cases hO
      next O1 h2 =>
      simp only [packOverflow, ha, if_true, bind, Except.bind, h2, h1]
      exact ih _ _ _ _ hS hO
    · simp only [slotValues, ha, Bool.false_eq_true, if_false, packAccs, bind, Except.bind] at hS
      simp only [overflowTable, List.filter_cons, ha, Bool.false_eq_true, if_false] at hO
      split at hS
      · cases hS
      next S1 h1 =>
      simp only [packOverflow, ha, bind, Except.bind, h1]
      exact ih _ _ _ _ hS hO

/-- Phase B into zeroed stores that are large enough (R173): slot j of MAIN is the slot value of element j, entry e of
OVF is entry e of the overflow table, and every other bit of both is 0. -/
theorem packOverflow_zeroStore (p ow : Nat) (hp : 1 ≤ p ∧ p ≤ 32) (how : 1 ≤ ow ∧ ow ≤ 33) (values : List Word)
    (mainLen ovfLen : Nat) (hm : values.length * (p + 1) ≤ 32 * mainLen)
    (ho : countOverflows p values * ow ≤ 32 * ovfLen) (hfit : ∀ a ∈ values, a.toNat < 2 ^ ow) :
    ∃ S O, packOverflow p ow 0 0 values (zeroStore mainLen) (zeroStore ovfLen) = .ok (S, O) ∧
      S.length = mainLen ∧ O.length = ovfLen ∧
      (∀ b, values.length * (p + 1) ≤ b → storeBit S b = false) ∧
      (∀ b, countOverflows p values * ow ≤ b → storeBit O b = false) ∧
      (∀ j (h : j < values.length), ∀ t < p + 1, storeBit S (j * (p + 1) + t) =
        ((slotValues p 0 values)[j]'(by simpa using h)).getLsbD t) ∧
      ∀ e (h : e < (overflowTable p values).length), fieldNat O (e * ow) ow = (overflowTable p values)[e].toNat := by
  obtain ⟨S, eS, lS, zS, bS, -⟩ := packAccs_zeroStore (p + 1) (by omega) (slotValues p 0 values) mainLen (by simpa using hm)
  obtain ⟨O, eO, lO, zO, fO⟩ := packFields_zeroStore ow how (overflowTable p values) ovfLen
    (by rw [length_overflowTable]; exact ho) (fun a ha => hfit a (List.mem_of_mem_filter ha))
  refine ⟨S, O, packOverflow_eq p ow values 0 0 _ _ S O eS eO, lS, lO, by simpa using zS, ?_, ?_, fO⟩
  · rw [← length_overflowTable]
    exact zO
  · intro j h t ht
    exact bS j (by simpa using h) t ht

end Sys2Proof.Machine
end

