-- ==== Sys2Proof/Laws/Commands.lean ====
section
/-! SUPPORT. What each command can do, said once: if it answers a next state, then one of the cases named here holds
(spec/40_shared_contract.md R100), and what the shared operations of the commands give. -/

namespace Sys2Proof.Machine

/-- `finish` answers a next state exactly when its accesses succeed. -/
theorem finish_next {α : Type} (r : Except Fault α) (f : α → State) (t : State) :
    finish r f = .next t ↔ ∃ a, r = .ok a ∧ t = f a := by
  cases r with
  | error e => simp [finish]
  | ok a => simp [finish, eq_comm]

/-- While KIND = NONE a command that needs an instance raises NoInstance (R118). -/
theorem withInstance_none (s : State) (f : Codec → Result) (h : s.ctx.kind = .none) :
    withInstance s f = .next (s.raise .noInstance) := by
  simp [withInstance, h, codecOfKind]

/-- With an instance a command is dispatched on its kind (R191). -/
theorem withInstance_some (s : State) (f : Codec → Result) (c : Codec) (h : s.ctx.kind = kindOf c) :
    withInstance s f = f c := by
  simp [withInstance, h]

/-- A KIND that is not NONE is the kind of a codec. -/
theorem exists_codec (k : Kind) (h : k ≠ .none) : ∃ c, k = kindOf c := by
  cases k with
  | spanning => exact ⟨.spanning, rfl⟩
  | nonSpanning => exact ⟨.nonSpanning, rfl⟩
  | overflow => exact ⟨.overflow, rfl⟩
  | none => exact absurd rfl h

/-- What CREATE can do (R185, R187): raise ConfigurationError, or install a fresh context. -/
theorem execCreate_next {kind : Word} {s t : State} (h : execCreate kind s = .next t) :
    (codecOfCode kind = none ∧ t = s.raise .configurationError) ∨
    ∃ c, codecOfCode kind = some c ∧ t = (s.commit (freshContext c)).respond .ok := by
  unfold execCreate at h
  split at h
  next hc => exact .inl ⟨hc, by cases h; rfl⟩
  next c hc => exact .inr ⟨c, hc, by cases h; rfl⟩

/-- What COMPRESS can do (R101, R102, R118): raise NoInstance, raise CapacityError, or replace the context by the one
its kind packs. -/
theorem execCompress_next {values : List Word} {s t : State} (h : execCompress values s = .next t) :
    (s.ctx.kind = .none ∧ t = s.raise .noInstance) ∨
    ∃ c, s.ctx.kind = kindOf c ∧
      ((s.params.nmax.toNat < values.length ∧ t = s.raise .capacityError) ∨
       (values.length ≤ s.params.nmax.toNat ∧ ∃ ctx, compressContext s.params.ovfMode values c = .ok ctx ∧
         t = (s.commit ctx).respond .ok)) := by
  unfold execCompress at h
  by_cases hk : s.ctx.kind = .none
  · rw [withInstance_none s _ hk] at h
    exact .inl ⟨hk, by cases h; rfl⟩
  · obtain ⟨c, hc⟩ := exists_codec _ hk
    rw [withInstance_some s _ c hc] at h
    refine .inr ⟨c, hc, ?_⟩
    split at h
    next hn => exact .inl ⟨hn, by cases h; rfl⟩
    next hn =>
      obtain ⟨ctx, e, ht⟩ := (finish_next _ _ _).mp h
      exact .inr ⟨by omega, ctx, e, ht⟩

/-- What GET can do (R105, R118): raise NoInstance, raise BoundsError, or answer the element. -/
theorem execGet_next {index : Word} {s t : State} (h : execGet index s = .next t) :
    (s.ctx.kind = .none ∧ t = s.raise .noInstance) ∨
    ∃ c, s.ctx.kind = kindOf c ∧
      ((s.ctx.n.toNat ≤ index.toNat ∧ t = s.raise .boundsError) ∨
       (index.toNat < s.ctx.n.toNat ∧ ∃ v, element s.params.ovfMode s.ctx index.toNat c = .ok v ∧
         t = s.respond (.okValue v))) := by
  unfold execGet at h
  by_cases hk : s.ctx.kind = .none
  · rw [withInstance_none s _ hk] at h
    exact .inl ⟨hk, by cases h; rfl⟩
  · obtain ⟨c, hc⟩ := exists_codec _ hk
    rw [withInstance_some s _ c hc] at h
    refine .inr ⟨c, hc, ?_⟩
    split at h
    next hn => exact .inl ⟨hn, by cases h; rfl⟩
    next hn =>
      obtain ⟨v, e, ht⟩ := (finish_next _ _ _).mp h
      exact .inr ⟨by omega, v, e, ht⟩

/-- What DECOMPRESS can do (R104, R118): raise NoInstance, or answer the elements. -/
theorem execDecompress_next {s t : State} (h : execDecompress s = .next t) :
    (s.ctx.kind = .none ∧ t = s.raise .noInstance) ∨
    ∃ c, s.ctx.kind = kindOf c ∧
      ∃ values, readElements (fun i => element s.params.ovfMode s.ctx i c) 0 s.ctx.n.toNat = .ok values ∧
        t = s.respond (.okSeq values) := by
  unfold execDecompress at h
  by_cases hk : s.ctx.kind = .none
  · rw [withInstance_none s _ hk] at h
    exact .inl ⟨hk, by cases h; rfl⟩
  · obtain ⟨c, hc⟩ := exists_codec _ hk
    rw [withInstance_some s _ c hc] at h
    obtain ⟨values, e, ht⟩ := (finish_next _ _ _).mp h
    exact .inr ⟨c, hc, values, e, ht⟩

/-- What SIZE can do (R107, R118): raise NoInstance, or answer the bits allocated. -/
theorem execSize_next {s t : State} (h : execSize s = .next t) :
    (s.ctx.kind = .none ∧ t = s.raise .noInstance) ∨
    ((∃ c, s.ctx.kind = kindOf c) ∧ t = s.respond (.okSize (sizeInBits s.ctx))) := by
  unfold execSize at h
  by_cases hk : s.ctx.kind = .none
  · rw [withInstance_none s _ hk] at h
    exact .inl ⟨hk, by cases h; rfl⟩
  · obtain ⟨c, hc⟩ := exists_codec _ hk
    rw [withInstance_some s _ c hc] at h
    exact .inr ⟨⟨c, hc⟩, by cases h; rfl⟩

/-- Reading elements one by one gives the sequence of them (R104). -/
theorem readElements_ok (f : Nat → Except Fault Word) (g : Nat → Word) (i count : Nat)
    (h : ∀ j, i ≤ j → j < i + count → f j = .ok (g j)) :
    readElements f i count = .ok ((List.range' i count).map g) := by
  induction count generalizing i with
  | zero => rfl
  | succ count ih =>
    simp only [readElements, bind, Except.bind, pure, Except.pure, List.range'_succ, List.map_cons]
    rw [h i le_rfl (by omega), ih (i + 1) (fun j h1 h2 => h j (by omega) (by omega))]

/-- A sequence that was read has one value for each element, and each is what its read gave (R104, R115). -/
theorem readElements_spec (f : Nat → Except Fault Word) (i count : Nat) (values : List Word)
    (h : readElements f i count = .ok values) :
    values.length = count ∧ ∀ j (hj : j < values.length), f (i + j) = .ok values[j] := by
  induction count generalizing i values with
  | zero =>
    simp only [readElements, Except.ok.injEq] at h
    subst h
    exact ⟨rfl, fun j hj => absurd hj (by simp)⟩
  | succ count ih =>
    simp only [readElements, bind, Except.bind, pure, Except.pure] at h
    split at h
    · cases h
    next v hv =>
    split at h
    · cases h
    next rest hrest =>
    cases h
    obtain ⟨hl, he⟩ := ih _ _ hrest
    refine ⟨by simp [hl], ?_⟩
    intro j hj
    rcases j with _ | j
    · simpa using hv
    · have := he j (by simpa using hj)
      have e : i + (j + 1) = i + 1 + j := by omega
      simpa [e] using this

/-- The packet taken off the port and the words left are the words of the port, and the packet is complete (R78). -/
theorem takePacket_eq_some {ws packet rest : List Word} (h : takePacket ws = some (packet, rest)) :
    ∃ w0 w1 payload, packet = w0 :: w1 :: payload ∧ payload.length = payloadLength w0 w1 ∧ ws = packet ++ rest := by
  unfold takePacket at h
  split at h
  next w0 w1 tail =>
    split at h
    next hl =>
      simp only [Option.some.injEq, Prod.mk.injEq] at h
      obtain ⟨rfl, rfl⟩ := h
      exact ⟨w0, w1, tail.take (payloadLength w0 w1), rfl, by simp [hl], by simp⟩
    next => cases h
  next => cases h

/-- A complete packet at the front of the port is the one that is taken (R73, R78). -/
theorem takePacket_append (w0 w1 : Word) (payload rest : List Word) (h : payload.length = payloadLength w0 w1) :
    takePacket (w0 :: w1 :: (payload ++ rest)) = some (w0 :: w1 :: payload, rest) := by
  simp only [takePacket, ← h]
  simp

/-- The command a complete packet runs, whatever it is: the step is the running of the packet that is taken. -/
theorem step_of_takePacket {s : State} {packet rest : List Word} (hc : s.portClash = false)
    (h : takePacket s.cmdPort = some (packet, rest)) : step s = runPacket packet (s.consume rest) := by
  simp [step, runNext, hc, h]

/-- What a step can do: if it answers a next state, then no packets overlap, a complete packet was taken, and either it
decodes to `illegal` and IllegalCommand is raised, or its command is executed (R73, R97, R100). -/
theorem step_next {s t : State} (h : step s = .next t) :
    s.portClash = false ∧ ∃ packet rest, takePacket s.cmdPort = some (packet, rest) ∧
      ((∃ i, decode packet = .ok i ∧ exec i (s.consume rest) = .next t) ∨
       (∃ e, decode packet = .error e ∧ e ≠ .notOnePacket ∧ t = (s.consume rest).raise .illegalCommand)) := by
  unfold step runNext at h
  split at h
  · cases h
  next hc =>
  split at h
  · cases h
  next packet rest hp =>
  refine ⟨by simpa using hc, packet, rest, hp, ?_⟩
  unfold runPacket at h
  split at h
  next i hi => exact .inl ⟨i, hi, h⟩
  · cases h
  next hd => exact .inr ⟨_, hd, by simp, by cases h; rfl⟩
  next hd => exact .inr ⟨_, hd, by simp, by cases h; rfl⟩
  next hd => exact .inr ⟨_, hd, by simp, by cases h; rfl⟩

/-- What a command changes: it appends one response, and beside that only CREATE and COMPRESS write, the context alone
(R51, R86, R108). -/
theorem exec_next {i : Instr} {s t : State} (h : exec i s = .next t) :
    (∃ r, t = s.respond r) ∨
    ∃ c, t = (s.commit c).respond .ok ∧ ((∃ kind, i = .create kind) ∨ ∃ values, i = .compress values) := by
  cases i with
  | create kind =>
    rcases execCreate_next h with ⟨-, rfl⟩ | ⟨c, -, rfl⟩
    · exact .inl ⟨_, rfl⟩
    · exact .inr ⟨_, rfl, .inl ⟨kind, rfl⟩⟩
  | compress values =>
    rcases execCompress_next h with ⟨-, rfl⟩ | ⟨c, -, ⟨-, rfl⟩ | ⟨-, ctx, -, rfl⟩⟩
    · exact .inl ⟨_, rfl⟩
    · exact .inl ⟨_, rfl⟩
    · exact .inr ⟨_, rfl, .inr ⟨values, rfl⟩⟩
  | decompress =>
    rcases execDecompress_next h with ⟨-, rfl⟩ | ⟨c, -, values, -, rfl⟩
    · exact .inl ⟨_, rfl⟩
    · exact .inl ⟨_, rfl⟩
  | get index =>
    rcases execGet_next h with ⟨-, rfl⟩ | ⟨c, -, ⟨-, rfl⟩ | ⟨-, v, -, rfl⟩⟩
    · exact .inl ⟨_, rfl⟩
    · exact .inl ⟨_, rfl⟩
    · exact .inl ⟨_, rfl⟩
  | size =>
    rcases execSize_next h with ⟨-, rfl⟩ | ⟨-, rfl⟩
    · exact .inl ⟨_, rfl⟩
    · exact .inl ⟨_, rfl⟩

end Sys2Proof.Machine
end

