-- ==== Sys2Proof/Laws/PerInstr.lean ====
section
/-! SUPPORT. Statements made for each command in turn. HeadOfEncode: the encoding of a command has the head that its row
of spec/opcode_table.json gives, with its reserved bits 0 (spec/30_encoding.md R75, R79, R81 to R85). -/

namespace Sys2Proof.Laws.HeadOfEncode

/-- The packet begins with a head that matches the row of the command's mnemonic, and has no reserved bit set. -/
def Statement (i : Instr) : Prop :=
  ∃ w0 w1 payload, encode i = w0 :: w1 :: payload ∧ reservedOf w0 = 0#24 ∧
    ∃ row ∈ opcodeTable, row.mnemonic = mnemonicOf i ∧ headOf w0 w1 &&& row.mask = row.pattern

/-- A head whose operand word is left out of the mask matches whatever the operand is. -/
theorem head_mask (w0 w1 : Word) : headOf w0 w1 &&& 0xFFFFFFFF00000000 = headOf w0 0#32 := by
  apply BitVec.eq_of_getLsbD_eq
  intro j hj
  unfold headOf
  rw [BitVec.getLsbD_and, BitVec.getLsbD_append, BitVec.getLsbD_append]
  have hm : (0xFFFFFFFF00000000 : BitVec 64).getLsbD j = decide (32 ≤ j) := by
    have : ∀ k : Fin 64, (0xFFFFFFFF00000000 : BitVec 64).getLsbD k.val = decide (32 ≤ k.val) := by decide
    exact this ⟨j, hj⟩
  rw [hm]
  by_cases h : j < 32
  · have : ¬ 32 ≤ j := by omega
    simp [h, this]
  · have : 32 ≤ j := by omega
    simp [h, this]

theorem create (kind : Word) : Statement (.create kind) :=
  ⟨0x01000000#32, kind, [], rfl, by decide, opcodeTable[0], by simp [opcodeTable], rfl,
    by show headOf _ _ &&& 0xFFFFFFFF00000000 = _; rw [head_mask]; decide⟩

theorem compress (values : List Word) : Statement (.compress values) :=
  ⟨0x02000000#32, _, values, rfl, by decide, opcodeTable[1], by simp [opcodeTable], rfl,
    by show headOf _ _ &&& 0xFFFFFFFF00000000 = _; rw [head_mask]; decide⟩

theorem decompress : Statement .decompress :=
  ⟨0x03000000#32, 0#32, [], rfl, by decide, opcodeTable[2], by simp [opcodeTable], rfl, by decide⟩

theorem get (index : Word) : Statement (.get index) :=
  ⟨0x04000000#32, index, [], rfl, by decide, opcodeTable[3], by simp [opcodeTable], rfl,
    by show headOf _ _ &&& 0xFFFFFFFF00000000 = _; rw [head_mask]; decide⟩

theorem size : Statement .size :=
  ⟨0x05000000#32, 0#32, [], rfl, by decide, opcodeTable[4], by simp [opcodeTable], rfl, by decide⟩

/-- No head belongs to two rows of the table: two rows differ in a bit that both masks require. -/
theorem rows_disjoint :
    opcodeTable.Pairwise fun a b => a.pattern &&& (a.mask &&& b.mask) ≠ b.pattern &&& (a.mask &&& b.mask) := by
  decide

end Sys2Proof.Laws.HeadOfEncode
end

