-- ==== Sys2Proof/Tests/Slice0.lean ====
section
/-! SUPPORT. The model's own tests. Expected values come from the encodings of spec/30_encoding.md and from the vectors
of spec/95_test_vectors.md, each named at its test. The witnesses at the end show, for each obligation with hypotheses,
a concrete state and operands that meet all of them together. -/

namespace Sys2Proof.Tests
open Sys2Proof Sys2Proof.Machine

/-! ## Small states -/

/-- The reset state with another context. -/
def holding (c : Context) : State := { State.reset with ctx := c }

/-- Vector V1-12 of spec/95_test_vectors.md: [0, 8] under SPANNING. -/
def spanningContext : Context :=
  { Context.reset with kind := .spanning, n := 2, k := 4, mainlen := 1, main := [0x00000080#32] }

/-- Vector V2-11: [0, 8] under NON_SPANNING. -/
def nonSpanningContext : Context :=
  { Context.reset with kind := .nonSpanning, n := 2, k := 4, epw := 8, mainlen := 1, main := [0x00000080#32] }

/-- Vector V3-9: [1, 32] under OVERFLOW. -/
def overflowContext : Context :=
  { Context.reset with kind := .overflow, n := 2, kg := 6, p := 1, kp := 2, maxn := 1, m := 1, mainlen := 1, ovflen := 1,
                       main := [0x00000009#32], ovf := [0x00000020#32] }

/-- A state whose command port holds the given words. -/
def presenting (words : List Word) (s : State) : State := { s with cmdPort := words }

/-- A state with the small capacity NMAX = 1. -/
def smallCapacity (s : State) : State := { s with params := { nmax := 1, ovfMode := .kglobal } }

/-- The next state's last response packet; the empty list where there is none. -/
def answer : Result → List Word
  | .next t => t.respPort.getLast?.getD []
  | .fault _ => []
  | .refused _ => []

/-- The next state's context. -/
def contextAfter : Result → Option Context
  | .next t => some t.ctx
  | .fault _ => none
  | .refused _ => none

/-- A context of the three kinds, packed. -/
def packed (mode : OvfMode) (values : List Word) (c : Codec) : Option Context :=
  match compressContext mode values c with
  | .ok ctx => some ctx
  | .error _ => none

/-! ## Well-formedness: the one check, and an ill-formed term that it refuses -/

theorem test_wellformed_compress : (Instr.compress [1#32, 32#32]).wf = true := by decide

theorem test_illformed_compress_refused : (Instr.compress (List.replicate (2 ^ 32) 0#32)).wf = false := by
  simp only [Instr.wf, List.length_replicate, Nat.lt_irrefl, decide_false]

/-! ## Decoding: words written out from the encodings of R81 to R85, bit by bit -/

theorem test_decode_create : decode [0b00000001000000000000000000000000#32, 0b10#32] = .ok (.create 2#32) := by decide

theorem test_decode_compress :
    decode [0b00000010000000000000000000000000#32, 0b10#32, 0b101#32, 0b111#32] = .ok (.compress [5#32, 7#32]) := by
  decide

theorem test_decode_decompress : decode [0b00000011000000000000000000000000#32, 0#32] = .ok .decompress := by decide

theorem test_decode_get : decode [0b00000100000000000000000000000000#32, 0b11#32] = .ok (.get 3#32) := by decide

theorem test_decode_size : decode [0b00000101000000000000000000000000#32, 0#32] = .ok .size := by decide

/-- Vectors E14 and E15: illegal opcodes. -/
theorem test_decode_illegal_opcodes :
    [decode [0#32, 0#32], decode [0x06000000#32, 0#32], decode [0xFF000000#32, 0x12345678#32]] =
      List.replicate 3 (.error .illegalOpcode) := by decide

/-- Vectors E16 to E19: reserved bits and a non-zero operand, each rejected by its name. -/
theorem test_decode_reserved :
    [decode [0x04000001#32, 3#32], decode [0x03000000#32, 1#32], decode [0x05000000#32, 1#32],
      decode [0x02800000#32, 2#32, 7#32, 8#32]] =
      [.error .reservedBits, .error .operandNotZero, .error .operandNotZero, .error .reservedBits] := by decide

/-- The table's rows, at the numbers of spec/opcode_table.json. -/
theorem test_table_words :
    [decodeTableWord 64 0x0100000000000002, decodeTableWord 64 0x0200000000000001,
      decodeTableWord 64 0x0300000000000000, decodeTableWord 64 0x0400000000000007,
      decodeTableWord 64 0x0500000000000000, decodeTableWord 64 0x0000000000000001] =
      [some (.create 2#32), some (.compress [0#32]), some .decompress, some (.get 7#32), some .size, none] := by decide

/-- Lines of R95 and of spec/95_test_vectors.md section 7: names, a kind code, decimal and hexadecimal numbers, a comment,
and two lines that are no command. -/
theorem test_assemble :
    ["CREATE NON_SPANNING", "CREATE #7", "COMPRESS 1 99999 0x1F ; three", "GET 0xFFFFFFFF", ".word 0x04000001 0", "SIZE",
      "GET -1", "get 3"].map assemble =
    [some [0x01000000#32, 1#32], some [0x01000000#32, 7#32], some [0x02000000#32, 3#32, 1#32, 99999#32, 31#32],
      some [0x04000000#32, 0xFFFFFFFF#32], some [0x04000001#32, 0#32], some [0x05000000#32, 0#32], none, none] := by
  decide

/-- A blank line and a comment-only line stand for no packet (notes/assumptions/14.md). -/
theorem test_assemble_no_command : ["", " ", "; end"].map assemble = [none, none, none] := by decide

/-- The first step after reset runs the packet that is placed: CREATE SPANNING, vector E1. -/
theorem test_first_step :
    answer (step (State.reset.withFetchWord 64 0x0100000000000000)) = [0#32] := by decide

/-! ## The primitive -/

/-- Vector B1: widths. -/
theorem test_bits_needed :
    [0, 1, 2, 3, 4, 7, 8, 255, 256, 131071, 0x7FFFFFFF, 0x80000000, 0xFFFFFFFF].map bitsNeeded =
      [1, 1, 2, 2, 3, 3, 4, 8, 9, 17, 31, 32, 32] := by decide

/-- Vector B7: a 33-bit field at bit offset 1 straddles two words. -/
theorem test_field_write_33 :
    fieldWrite (zeroStore 3) 33 1 0x1FFFFFFFF#64 = .ok [0#32, 0xFFFFFFFE#32, 3#32] := by decide

/-- Vector B9: the value is masked before it is shifted. -/
theorem test_field_write_masks :
    fieldWrite (zeroStore 2) 10 3 0xFFFFFFFF#64 = .ok [0xC0000000#32, 0x000000FF#32] := by decide

/-- Vectors B8 and B12: the high word past the store's end counts as 0, and the shift is logical. -/
theorem test_field_read_last : fieldRead [0xFFFFFFFF#32] 1 32 0 = .ok 0xFFFFFFFF#64 := by decide

/-! ## The commands -/

/-- Vectors E3 and E6: CREATE replaces whatever was there. -/
theorem test_create_overflow :
    contextAfter (exec (.create 2#32) (holding spanningContext)) =
      some { Context.reset with kind := .overflow, kg := 1, p := 1, kp := 2, maxn := 1 } := by decide

/-- Vector E4: the internal code of NONE is an unrecognized kind. -/
theorem test_create_unrecognized : answer (exec (.create 3#32) State.reset) = [2#32] := by decide

/-- Vector V1-11: field 10 straddles two words. -/
theorem test_compress_spanning :
    (packed .kglobal [3, 4, 3, 0, 3, 3, 3, 3, 2, 1, 3, 3] .spanning).map (·.main) =
      some [0xCA6DB0E3#32, 0x00000006#32] := by decide

/-- Vector V2-9: ten slots of three bits in a word. -/
theorem test_compress_non_spanning :
    (packed .kglobal [3, 4, 3, 0, 3, 3, 3, 3, 2, 1, 3, 3] .nonSpanning).map (·.main) =
      some [0x0A6DB0E3#32, 0x0000001B#32] := by decide

/-- Vector V3-4: the doc's skewed example, under both entry widths. -/
theorem test_compress_overflow :
    ((packed .kglobal [1, 99999, 50000, 131071] .overflow).map fun c => (c.p, c.m, c.main, c.ovf)) =
      some (2#6, 3#31, [0x00000D61#32], [0x86A1869F#32, 0x0007FFFD#32]) ∧
    (packed .word [1, 99999, 50000, 131071] .overflow).map (·.ovf) =
      some [0x0001869F#32, 0x0000C350#32, 0x0001FFFF#32] := by decide

/-- Vectors V3-12, V3-13 and V3-7: a tie between candidates, a candidate equal to the baseline, and candidates that
would win but are not valid. -/
theorem test_search :
    [search [0, 0, 0, 2, 16], search [0, 8], search [1000, 1000, 1000, 1000, 1000, 0, 0, 0]] =
      [(5, 1), (4, 4), (10, 10)] := by decide

/-- Vectors E10 to E12: an index of N, and indices that are negative as signed numbers. -/
theorem test_get_bounds :
    [2#32, 0xFFFFFFFF#32, 0x80000000#32].map (fun i => answer (exec (.get i) (holding spanningContext))) =
      List.replicate 3 [1#32] := by decide

/-- Vectors V1-12, V2-11 and V3-9: the last element under each kind. -/
theorem test_get_last :
    [spanningContext, nonSpanningContext, overflowContext].map (fun c => answer (exec (.get 1#32) (holding c))) =
      [[0#32, 8#32], [0#32, 8#32], [0#32, 32#32]] := by decide

/-- Vector V3-9: the bulk read. -/
theorem test_decompress : answer (exec .decompress (holding overflowContext)) = [0#32, 2#32, 1#32, 32#32] := by decide

/-- Vector V3-9: 64 bits allocated, low word first. -/
theorem test_size : answer (exec .size (holding overflowContext)) = [0#32, 64#32, 0#32] := by decide

/-- Vector E21: NoInstance is raised before CapacityError. -/
theorem test_no_instance_first :
    answer (exec (.compress [1, 2]) (smallCapacity State.reset)) = [4#32] := by decide

/-- Vector E22: IllegalCommand is raised before NoInstance. -/
theorem test_illegal_first :
    answer (step (presenting [0x04000001#32, 0#32] State.reset)) = [5#32] := by decide

/-! ## The packed states meet the invariant (used by the witnesses) -/

/-- The bits of a store of one word. -/
theorem storeBit_one (w : Word) (b : Nat) : storeBit [w] b = (decide (b < 32) && w.getLsbD b) := by
  by_cases h : b < 32
  · have h1 : b / 32 = 0 := by omega
    have h2 : b % 32 = b := by omega
    simp [storeBit, h1, h2, h]
  · rw [storeBit_past_end [w] b (by simp; omega)]
    simp [h]

/-- A store of one word has no 1 bit from position `lo` on, if the word has none. -/
theorem one_word_padding (w : Word) (lo : Nat) (h : ∀ b : Fin 32, lo ≤ b.val → w.getLsbD b.val = false) (b : Nat)
    (hb : lo ≤ b) : storeBit [w] b = false := by
  rw [storeBit_one]
  by_cases h32 : b < 32
  · simp [h ⟨b, h32⟩ hb]
  · simp [h32]

theorem spanning_inv : (holding spanningContext).Inv where
  params := by decide
  ctx :=
    { capacity := by decide
      stores := by decide
      none := fun h => absurd h (by decide)
      spanning := fun _ =>
        { width := by decide
          words := by decide
          padding := one_word_padding _ _ (by decide)
          tight := fun _ => .inr ⟨1, by decide, by decide⟩
          unused := by decide }
      nonSpanning := fun h => absurd h (by decide)
      overflow := fun h => absurd h (by decide) }

theorem nonSpanning_inv : (holding nonSpanningContext).Inv where
  params := by decide
  ctx :=
    { capacity := by decide
      stores := by decide
      none := fun h => absurd h (by decide)
      spanning := fun h => absurd h (by decide)
      nonSpanning := fun _ =>
        { width := by decide
          slots := by decide
          words := by decide
          padding := fun b hb => by
            have h32 : nonSpanningContext.epw.toNat * nonSpanningContext.k.toNat = 32 := by decide
            change nonSpanningContext.epw.toNat * nonSpanningContext.k.toNat ≤ b % 32 at hb
            omega
          lastWord := fun i hi => by
            change fieldNat [0x00000080#32] (slotPos 4 8 i) 4 = 0
            change 2 ≤ i at hi
            refine (eq_fieldNat _ _ 4 0 (by decide) fun j hj => ?_).symm
            have : 8 ≤ slotPos 4 8 i + j := by unfold slotPos; omega
            rw [Nat.zero_testBit, one_word_padding _ 8 (by decide) _ this]
          unused := by decide }
      overflow := fun h => absurd h (by decide) }

theorem overflow_inv : (holding overflowContext).Inv where
  params := by decide
  ctx :=
    { capacity := by decide
      stores := by decide
      none := fun h => absurd h (by decide)
      spanning := fun h => absurd h (by decide)
      nonSpanning := fun h => absurd h (by decide)
      overflow := fun _ =>
        { width := by decide
          slotWidth := by decide
          inlineMax := by decide
          words := by decide
          padding := one_word_padding _ _ (by decide)
          flagged := by decide
          indexFits := by decide
          fallBack := fun h => absurd h (by decide)
          ovfWords := by decide
          entries := fun e he => by
            change e < 1 at he
            have : e = 0 := by omega
            subst this
            decide
          ovfPadding := one_word_padding _ _ (by decide)
          empty := fun h => absurd h (by decide)
          unused := by decide } }

/-! ## Witnesses: concrete states and operands that meet the hypotheses of the obligations -/

theorem witness_DecodeOfEncodeGivesTheCommand :
    (Instr.compress [1#32, 0xFFFFFFFF#32]).wf = true ∧ (Instr.get 0xFFFFFFFF#32).wf = true := by decide

theorem witness_EncodeOfDecodeGivesThePacket : decode [0x02000000#32, 1#32, 9#32] = .ok (.compress [9#32]) := by decide

theorem witness_DecodeAgreesWithTheOpcodeTable :
    [9#32, 8#32].length = payloadLength 0x02000000#32 2#32 ∧ ([] : List Word).length = payloadLength 0x05000000#32 0#32 := by
  decide

/-- Each clause: a decimal and a hexadecimal number at the ends of the range, and a line of each kind that assembles. -/
theorem witness_EveryAssembledLineIsOnePacket :
    NumberText ['0'] 0#32 ∧ NumberText ['0', 'x', 'F', 'F', 'F', 'F', 'F', 'F', 'F', 'f'] 0xFFFFFFFF#32 ∧
    [(['0'], 0#32)].length < 2 ^ 32 ∧
    assemble "DECOMPRESS" = some [0x03000000#32, 0#32] ∧ assemble ".word 0 0" = some [0#32, 0#32] := by
  refine ⟨.inl ⟨by simp, [0], by decide, .cons (by decide) .nil⟩,
    .inr ⟨_, rfl, by simp, [15, 15, 15, 15, 15, 15, 15, 15], by decide, ?_⟩, by decide, by decide, by decide⟩
  repeat' first | exact .nil | refine .cons (by decide) ?_

/-- Both clauses, at the boundary opcodes 0x00, 0x06 and 0xFF. -/
theorem witness_IllegalOpcodeIsAnsweredAndChangesNothing :
    (presenting [0x06000000#32, 7#32, 1#32] State.reset).portClash = false ∧
    (presenting [0x06000000#32, 7#32, 1#32] State.reset).cmdPort = 0x06000000#32 :: 7#32 :: [1#32] ∧
    (opcodeOf 0#32 = 0#8 ∧ 6#8 ≤ opcodeOf 0x06000000#32 ∧ 6#8 ≤ opcodeOf 0xFF000000#32) := by decide

/-- Both clauses: the lowest and the highest reserved bit, and the operand word of DECOMPRESS and of SIZE. -/
theorem witness_ReservedBitsAreAnsweredAndChangeNothing :
    (presenting [0x02800000#32, 1#32, 7#32, 5#32] State.reset).portClash = false ∧
    (presenting [0x02800000#32, 1#32, 7#32, 5#32] State.reset).cmdPort =
      0x02800000#32 :: 1#32 :: ([7#32] ++ [5#32]) ∧
    [7#32].length = payloadLength 0x02800000#32 1#32 ∧ 1#8 ≤ opcodeOf 0x02800000#32 ∧ opcodeOf 0x02800000#32 ≤ 5#8 ∧
    reservedOf 0x02800000#32 ≠ 0#24 ∧ reservedOf 0x01000001#32 ≠ 0#24 ∧
    opcodeOf 0x03000000#32 = 3#8 ∧ opcodeOf 0x05000000#32 = 5#8 ∧ (1#32 : Word) ≠ 0#32 := by decide

/-- A COMPRESS that ends in an error (R78), with its payload consumed, and a GET. -/
theorem witness_StepConsumesExactlyOnePacket :
    (presenting [0x02000000#32, 1#32, 7#32, 5#32] State.reset).cmdPort = 0x02000000#32 :: 1#32 :: [7#32, 5#32] ∧
    step (presenting [0x02000000#32, 1#32, 7#32, 5#32] State.reset) =
      .next { State.reset with cmdPort := [5#32], respPort := [[4#32]] } ∧
    step (presenting [0x04000000#32, 1#32, 7#32] State.reset) =
      .next { State.reset with cmdPort := [7#32], respPort := [[4#32]] } := ⟨rfl, rfl, rfl⟩

/-- Both clauses: one word, and a COMPRESS one payload word short. -/
theorem witness_IncompletePacketHasNoStep :
    (presenting [0x04000000#32] State.reset).portClash = false ∧
    (presenting [0x04000000#32] State.reset).cmdPort.length < 2 ∧
    (presenting [0x02000000#32, 2#32, 7#32] State.reset).cmdPort = 0x02000000#32 :: 2#32 :: [7#32] ∧
    opcodeOf 0x02000000#32 = 2#8 ∧ [7#32].length < (2#32 : Word).toNat := by decide

theorem witness_StepRunsTheDecodedCommand :
    (Instr.get 1#32).wf = true ∧ (presenting (encode (.get 1#32) ++ [7#32]) (holding spanningContext)).portClash = false ∧
    (presenting (encode (.get 1#32) ++ [7#32]) (holding spanningContext)).cmdPort = encode (.get 1#32) ++ [7#32] := by
  decide

/-- Each check at its boundary: an illegal packet, no instance, kind code 3, NMAX + 1 values, index N. -/
theorem witness_ChecksAreMadeInOrder :
    decode [0#32, 0#32] = .error .illegalOpcode ∧
    decode [0x05000000#32, 0#32] = .ok .size ∧ (∀ c, Instr.size ≠ .create c) ∧ State.reset.ctx.kind = .none ∧
    decode [0x01000000#32, 3#32] = .ok (.create 3#32) ∧ 2 < (3#32 : Word).toNat ∧
    decode [0x02000000#32, 2#32, 7#32, 8#32] = .ok (.compress [7#32, 8#32]) ∧
    (smallCapacity (holding spanningContext)).ctx.kind ≠ .none ∧
    (smallCapacity (holding spanningContext)).params.nmax.toNat < [7#32, 8#32].length ∧
    decode [0x04000000#32, 2#32] = .ok (.get 2#32) ∧
    (holding spanningContext).ctx.n.toNat ≤ (2#32 : Word).toNat := by
  refine ⟨by decide, by decide, fun c => by simp, ?_⟩
  decide

/-- The last clause: each command where every check passes, GET at the index N - 1. -/
theorem witness_ChecksAreMadeInOrder_completes :
    (holding overflowContext).Inv ∧ (holding overflowContext).ctx.kind ≠ .none ∧
    decode [0x01000000#32, 2#32] = .ok (.create 2#32) ∧ (2#32 : Word).toNat ≤ 2 ∧
    decode [0x04000000#32, 1#32] = .ok (.get 1#32) ∧ (1#32 : Word).toNat < (holding overflowContext).ctx.n.toNat :=
  ⟨overflow_inv, by decide⟩

theorem witness_EveryStepAnswersOneResponsePacket :
    step (presenting [0x04000000#32, 1#32] (holding overflowContext)) =
      .next { holding overflowContext with respPort := [[0#32, 32#32]] } := rfl

theorem witness_ErrorLeavesTheStateUntouched :
    step (presenting [0x04000000#32, 2#32] (holding overflowContext)) =
      .next { holding overflowContext with respPort := [[1#32]] } ∧
    [[1#32]] = (presenting [0x04000000#32, 2#32] (holding overflowContext)).respPort ++ [1#32 :: []] ∧
    (1#32 : Word) ≠ 0#32 := ⟨rfl, rfl, by decide⟩

theorem witness_WithoutAnInstanceNothingRuns : State.reset.ctx.kind = .none := rfl

theorem witness_OnlyCreateAndCompressWriteTheContext :
    exec (.get 1#32) (holding spanningContext) = .next { holding spanningContext with respPort := [[0#32, 8#32]] } ∧
    (∀ c, Instr.get 1#32 ≠ .create c) ∧ ∀ A, Instr.get 1#32 ≠ .compress A :=
  ⟨rfl, fun c => by simp, fun A => by simp⟩

/-- The clauses on other kind codes, at their boundary values 2 and 3. -/
theorem witness_CreateInstallsTheFreshContext :
    (2#32 : Word).toNat ≤ 2 ∧ 2 < (3#32 : Word).toNat ∧
    exec (.create 2#32) State.reset =
      .next { holding { Context.reset with kind := .overflow, kg := 1, p := 1, kp := 2, maxn := 1 } with
        respPort := [[0#32]] } := ⟨by decide, by decide, rfl⟩

theorem witness_UnrecognizedKindRaisesConfigurationError :
    (3#32 : Word) ≠ 0#32 ∧ (3#32 : Word) ≠ 1#32 ∧ (3#32 : Word) ≠ 2#32 := by decide

theorem witness_CreateDependsOnTheKindAlone : (2#32 : Word).toNat ≤ 2 := by decide

/-- Both clauses at the boundary: NMAX = 1, with two values and with one. -/
theorem witness_CompressChecksTheCapacity :
    (smallCapacity (holding spanningContext)).ctx.kind ≠ .none ∧
    (smallCapacity (holding spanningContext)).params.nmax.toNat < [7#32, 8#32].length ∧
    [7#32].length ≤ (smallCapacity (holding spanningContext)).params.nmax.toNat := by decide

theorem witness_CompressSpanningPacksEveryValue :
    (holding spanningContext).ctx.kind = .spanning ∧ [7#32, 8#32].length ≤ (holding spanningContext).params.nmax.toNat := by
  decide

theorem witness_CompressNonSpanningPacksEveryValue :
    (holding nonSpanningContext).ctx.kind = .nonSpanning ∧
    [7#32, 8#32].length ≤ (holding nonSpanningContext).params.nmax.toNat := by decide

theorem witness_CompressOverflowPacksEveryValue :
    (holding overflowContext).ctx.kind = .overflow ∧ [1#32, 32#32].length ≤ (holding overflowContext).params.nmax.toNat := by
  decide

/-- Two states of one kind whose packed data differ. -/
theorem witness_CompressDependsOnKindAndInputAlone :
    (holding spanningContext).ctx.kind = (holding (freshContext .spanning)).ctx.kind ∧
    (holding spanningContext).ctx.kind ≠ .none ∧
    (holding spanningContext).params = (holding (freshContext .spanning)).params ∧
    [7#32].length ≤ (holding spanningContext).params.nmax.toNat := by decide

theorem witness_WriteOrderIsNotObservable : [2, 0, 1].Perm (List.range [5#32, 7#32, 9#32].length) := by decide

/-- Both hypotheses: a width of 4, and three values of ten bits in one word. -/
theorem witness_SpanningAndNonSpanningAgreeWhereNothingStraddles :
    bitsNeeded (maxOf [0#32, 8#32]) ∣ 32 ∧
    [1000#32, 1000#32, 1000#32].length ≤ 32 / bitsNeeded (maxOf [1000#32, 1000#32, 1000#32]) := by decide

theorem witness_StoreCapacitiesSuffice :
    (holding (freshContext .overflow)).ctx.kind ≠ .none ∧
    [1#32, 32#32].length ≤ (holding (freshContext .overflow)).params.nmax.toNat ∧
    exec (.compress [1#32, 32#32]) (holding (freshContext .overflow)) =
      .next { holding overflowContext with respPort := [[0#32]] } := ⟨by decide, by decide, rfl⟩

theorem witness_SearchFindsTheCheapestValidWidth : [1#32, 32#32] ≠ [] := by decide

theorem witness_SearchResultBounds : [1#32, 32#32] ≠ [] ∧ search [1#32, 32#32] = (6, 1) ∧ search [0#32, 8#32] = (4, 4) := by
  decide

/-- Both clauses at their boundary: one exception, and one more than 2^1. -/
theorem witness_IndexFitsExactlyWhenCountFits :
    1 ≤ 1 ∧ 2 ^ 1 < countOverflows 1 [2#32, 3#32, 4#32] := by decide

/-- A field of the greatest width at the greatest bit offset, ending at the store's end. -/
theorem witness_FieldReadsBackWhatWasWritten :
    1 ≤ 33 ∧ 33 ≤ 33 ∧ 31 * 33 + 33 ≤ 32 * (zeroStore 33).length ∧ fieldNat (zeroStore 33) (31 * 33) 33 = 0 := by decide

theorem witness_FieldWriteKeepsEveryOtherField :
    1 ≤ 10 ∧ 10 ≤ 33 ∧ 3 * 10 + 10 ≤ 32 * (zeroStore 2).length ∧ 4 * 10 + 10 ≤ 32 * (zeroStore 2).length ∧ 3 ≠ 4 ∧
    fieldWrite (zeroStore 2) 10 3 0xFFFFFFFF#64 = .ok [0xC0000000#32, 0x000000FF#32] := by decide

theorem witness_SlotReadsBackAndKeepsEveryOtherSlot :
    1 ≤ 10 ∧ 10 ≤ 32 ∧ 5 / (32 / 10) < (zeroStore 2).length ∧ fieldNat (zeroStore 2) (slotPos 10 (32 / 10) 5) 10 = 0 ∧
    6 ≠ 5 := by decide

theorem witness_ReadOnlyCommandsChangeNothing :
    exec .size (holding overflowContext) = .next { holding overflowContext with respPort := [[0#32, 64#32, 0#32]] } := rfl

/-- Both clauses at the boundary: the indices N and N - 1. -/
theorem witness_GetChecksTheBounds :
    (holding overflowContext).Inv ∧ (holding overflowContext).ctx.kind ≠ .none ∧
    (holding overflowContext).ctx.n.toNat ≤ (2#32 : Word).toNat ∧
    (1#32 : Word).toNat < (holding overflowContext).ctx.n.toNat := ⟨overflow_inv, by decide⟩

theorem witness_NegativeIndexIsOutOfBounds : (holding spanningContext).ctx.kind ≠ .none := by decide

theorem witness_GetSpanningAnswersTheField :
    (holding spanningContext).Inv ∧ (holding spanningContext).ctx.kind = .spanning ∧
    (1#32 : Word).toNat < (holding spanningContext).ctx.n.toNat := ⟨spanning_inv, by decide⟩

theorem witness_GetNonSpanningAnswersTheSlot :
    (holding nonSpanningContext).Inv ∧ (holding nonSpanningContext).ctx.kind = .nonSpanning ∧
    (1#32 : Word).toNat < (holding nonSpanningContext).ctx.n.toNat := ⟨nonSpanning_inv, by decide⟩

/-- Both clauses: slot 0 is inline, slot 1 is flagged. -/
theorem witness_GetOverflowFollowsTheFlag :
    (holding overflowContext).Inv ∧ (holding overflowContext).ctx.kind = .overflow ∧
    (0#32 : Word).toNat < (holding overflowContext).ctx.n.toNat ∧ storeBit overflowContext.main (0 * 2 + 1) = false ∧
    (1#32 : Word).toNat < (holding overflowContext).ctx.n.toNat ∧ storeBit overflowContext.main (1 * 2 + 1) = true :=
  ⟨overflow_inv, by decide⟩

theorem witness_DecompressAnswersEveryElement :
    (holding overflowContext).Inv ∧ (holding overflowContext).ctx.kind ≠ .none := ⟨overflow_inv, by decide⟩

theorem witness_SizeCountsTheAllocatedWords : (holding overflowContext).ctx.kind ≠ .none := by decide

theorem witness_SizeResultFitsTwoWords :
    (holding nonSpanningContext).Inv ∧ (holding nonSpanningContext).ctx.kind ≠ .none := ⟨nonSpanning_inv, by decide⟩

/-- The capacity is met with equality too: NMAX = 1 and one value. -/
theorem witness_CompressThenDecompressGivesTheInput :
    (2#32 : Word).toNat ≤ 2 ∧ [7#32].length ≤ (smallCapacity State.reset).params.nmax.toNat := by decide

theorem witness_CompressThenGetGivesTheElement :
    1 < [1#32, 32#32].length ∧ (holding overflowContext).ctx.kind ≠ .none ∧
    [1#32, 32#32].length ≤ (holding overflowContext).params.nmax.toNat := by decide

theorem witness_EmptyInputGivesEmptyOutput : (holding nonSpanningContext).ctx.kind ≠ .none := by decide

/-- One state for each of the three clauses. -/
theorem witness_SizeLaw :
    (holding spanningContext).ctx.kind = .spanning ∧ (holding nonSpanningContext).ctx.kind = .nonSpanning ∧
    (holding overflowContext).ctx.kind = .overflow ∧
    [1#32, 32#32].length ≤ (holding overflowContext).params.nmax.toNat := by decide

theorem witness_EntryWidthModeIsNotSeenByReads :
    (holding overflowContext).ctx.kind ≠ .none ∧
    [1#32, 32#32].length ≤ (holding overflowContext).params.nmax.toNat := by decide

theorem witness_EveryStepKeepsTheInvariant :
    (presenting [0x04000000#32, 1#32] (holding overflowContext)).Inv ∧
    step (presenting [0x04000000#32, 1#32] (holding overflowContext)) =
      .next { holding overflowContext with respPort := [[0#32, 32#32]] } :=
  ⟨⟨overflow_inv.params, overflow_inv.ctx⟩, rfl⟩

theorem witness_EveryStepKeepsTheStoresCanonical :
    Memory.wf (presenting [0x02000000#32, 2#32, 1#32, 32#32] (holding (freshContext .overflow))).ctx = true ∧
    step (presenting [0x02000000#32, 2#32, 1#32, 32#32] (holding (freshContext .overflow))) =
      .next { holding overflowContext with respPort := [[0#32]] } := ⟨by decide, rfl⟩

theorem witness_EveryCompletePacketIsAnswered :
    (presenting [0x03000000#32, 0#32] (holding overflowContext)).Inv ∧
    (presenting [0x03000000#32, 0#32] (holding overflowContext)).Ready :=
  ⟨⟨overflow_inv.params, overflow_inv.ctx⟩, by decide, by decide⟩

theorem witness_NoRunFaults : (presenting [0x03000000#32, 0#32] (holding overflowContext)).Inv :=
  ⟨overflow_inv.params, overflow_inv.ctx⟩

end Sys2Proof.Tests
end

section
/-! SUPPORT. What a COMPRESS leaves for the reads: every kind packs the sequence so that element `i` of the packed state
is value `i` of the sequence, and GET and DECOMPRESS answer accordingly (spec/40_shared_contract.md R104, R105, R115). -/

namespace Sys2Proof.Machine

/-! ## Fields and slots that hold a known value -/

/-- A register wide enough for a number holds that number. -/
theorem toNat_ofNat_of_lt {w x : Nat} (h : x < 2 ^ w) : (BitVec.ofNat w x).toNat = x := by
  rw [BitVec.toNat_ofNat, Nat.mod_eq_of_lt h]

/-- The value of a word is unchanged in the accumulator. -/
@[simp] theorem toNat_inlineSlot (a : Word) : (inlineSlot a).toNat = a.toNat := by
  rw [inlineSlot, BitVec.toNat_setWidth, Nat.mod_eq_of_lt (Nat.lt_trans a.isLt (by decide))]

/-- A word comes out of the accumulator as it went in (R139). -/
@[simp] theorem toWord_inlineSlot (a : Word) : toWord (inlineSlot a) = .ok a := by
  have h := toWord_ok a.toNat a.isLt
  simpa [inlineSlot] using h

/-- Field `j` of `n` lies in a store that the `n` fields fit (R124). -/
theorem field_in_range {j n w len : Nat} (hj : j < n) (hr : n * w ≤ 32 * len) : j * w + w ≤ 32 * len :=
  calc j * w + w = (j + 1) * w := by rw [Nat.add_mul, Nat.one_mul]
    _ ≤ n * w := Nat.mul_le_mul_right _ hj
    _ ≤ 32 * len := hr

/-- FieldRead answers the value that the field holds (R125). -/
theorem fieldRead_value {S : Store} {w i : Nat} {v : Acc} (hw : 1 ≤ w ∧ w ≤ 33) (hr : i * w + w ≤ 32 * S.length)
    (hv : fieldNat S (i * w) w = v.toNat) : fieldRead S S.length w i = .ok v := by
  rw [fieldRead_nat S w i hw hr, hv, BitVec.ofNat_toNat, BitVec.setWidth_eq]

/-- SlotRead answers the value that the slot holds (R150). -/
theorem slotRead_value {S : Store} {k epw i : Nat} {v : Acc} (hk : 1 ≤ k) (he : 1 ≤ epw ∧ epw * k ≤ 32)
    (hr : i / epw < S.length) (hv : fieldNat S (slotPos k epw i) k = v.toNat) :
    slotRead S S.length k epw i = .ok v := by
  rw [slotRead_nat S k epw i hk he hr, hv, BitVec.ofNat_toNat, BitVec.setWidth_eq]

/-- The length of a store of fields fits its 32-bit register (R35, R36). -/
theorem ceilDiv_fields_lt {n w : Nat} (hn : n < 2 ^ 31) (hw : w ≤ 33) : ceilDiv (n * w) 32 < 2 ^ 32 := by
  have hle : ceilDiv (n * w) 32 ≤ 2 * n :=
    ceilDiv_le _ _ _ (by omega) (calc n * w ≤ n * 33 := Nat.mul_le_mul_left _ hw
      _ ≤ 32 * (2 * n) := by omega)
  omega

/-! ## The slots of V3 -/

/-- A slot that holds an overflow index has its flag set (R160, R171). -/
theorem slotFlag_flaggedSlot {p e : Nat} (hp : p ≤ 32) (he : e < 2 ^ p) : slotFlag p (flaggedSlot p e) = true := by
  have hp' : p < 64 := by omega
  rw [slotFlag, flaggedSlot, BitVec.getLsbD_ofNat, Nat.testBit_two_pow_add_eq, Nat.testBit_lt_two_pow he]
  simp [hp']

/-- The payload of a slot is its value modulo 2^P (R160). -/
theorem toNat_slotPayload {p : Nat} (hp : p ≤ 32) (f : Acc) : (slotPayload p f).toNat = f.toNat % 2 ^ p := by
  have hlt : 2 ^ p - 1 < 2 ^ 64 :=
    Nat.lt_of_le_of_lt (Nat.sub_le _ _) (Nat.pow_lt_pow_right (by omega) (by omega))
  rw [slotPayload, mask, BitVec.toNat_and, toNat_ofNat_of_lt hlt, Nat.and_two_pow_sub_one_eq_mod]

/-- The value of a slot that holds an overflow index fits the slot's p + 1 bits (R171). -/
theorem toNat_flaggedSlot {p e : Nat} (hp : p ≤ 32) (he : e < 2 ^ p) :
    (flaggedSlot p e).toNat = 2 ^ p + e ∧ 2 ^ p + e < 2 ^ (p + 1) := by
  have hlt : 2 ^ p + e < 2 ^ (p + 1) := by rw [pow_succ]; omega
  exact ⟨toNat_ofNat_of_lt (Nat.lt_of_lt_of_le hlt (Nat.pow_le_pow_right (by omega) (by omega))), hlt⟩

/-- The payload of a slot that holds an overflow index is the index (R171, R174). -/
theorem toNat_slotPayload_flaggedSlot {p e : Nat} (hp : p ≤ 32) (he : e < 2 ^ p) :
    (slotPayload p (flaggedSlot p e)).toNat = e := by
  rw [toNat_slotPayload hp, (toNat_flaggedSlot hp he).1, Nat.add_mod_left, Nat.mod_eq_of_lt he]

/-- A value does not overflow exactly when it fits p bits (R171). -/
theorem overflows_eq_false_iff (p : Nat) (a : Word) : overflows p a = false ↔ a.toNat < 2 ^ p := by
  have := Nat.two_pow_pos p
  rw [overflows, maxInline, decide_eq_false_iff_not]
  omega

/-- An overflowing value has an overflow index below M (R171, R173). -/
theorem overflow_index_lt {p : Nat} {A : List Word} {j : Nat} {h : j < A.length} (ho : overflows p A[j] = true) :
    countOverflows p (A.take j) < countOverflows p A := by
  obtain ⟨hlt, -⟩ := List.getElem?_eq_some_iff.mp (overflowTable_getElem p A j h ho)
  rwa [length_overflowTable] at hlt

/-- A slot that holds an inline value has its flag clear, and its payload is the value (R171, R174). -/
theorem slot_inlineSlot {p : Nat} {a : Word} (hp : p ≤ 32) (ha : a.toNat < 2 ^ p) :
    slotFlag p (inlineSlot a) = false ∧ slotPayload p (inlineSlot a) = inlineSlot a := by
  constructor
  · rw [slotFlag, BitVec.getLsbD, toNat_inlineSlot, Nat.testBit_lt_two_pow ha]
  · apply BitVec.eq_of_toNat_eq
    rw [toNat_slotPayload hp, toNat_inlineSlot, Nat.mod_eq_of_lt ha]

/-- Every slot value of Phase B fits the slot's p + 1 bits, when every overflow index fits p bits (R165, R171). -/
theorem slotValues_lt {p : Nat} {A : List Word} (hp : p ≤ 32) (hm : countOverflows p A ≤ 2 ^ p) {j : Nat}
    (h : j < A.length) : ((slotValues p 0 A)[j]'(by simpa using h)).toNat < 2 ^ (p + 1) := by
  rw [slotValues_getElem p 0 A j h, Nat.zero_add]
  split
  next ho =>
    have he := overflow_index_lt ho
    obtain ⟨hv, hlt⟩ := toNat_flaggedSlot hp (Nat.lt_of_lt_of_le he hm)
    rwa [hv]
  next ho =>
    have ha := (overflows_eq_false_iff p A[j]).mp (by simpa using ho)
    rw [toNat_inlineSlot, pow_succ]
    omega

/-! ## The search -/

/-- What Phase B needs of a pair (kg, p): the slot is no wider than the values, and every overflow index fits its payload
(R165). -/
structure Admissible (A : List Word) (kg p : Nat) : Prop where
  pos : 1 ≤ p
  le : p ≤ kg
  indexFits : countOverflows p A ≤ 2 ^ p

/-- At the width of the sequence nothing overflows, so the fall-back p = kg is admissible (R163). -/
theorem admissible_fallBack (A : List Word) : Admissible A (bitsNeeded (maxOf A)) (bitsNeeded (maxOf A)) where
  pos := one_le_bitsNeeded _
  le := le_rfl
  indexFits := by
    have hzero : countOverflows (bitsNeeded (maxOf A)) A = 0 := by
      rw [countOverflows, List.countP_eq_zero]
      intro a ha
      simp [(overflows_eq_false_iff _ a).mpr (lt_two_pow_width ha)]
    rw [hzero]
    exact Nat.zero_le _

/-- The indices of a valid candidate's overflow table fit p bits (R165). -/
theorem le_two_pow_of_candidateValid {p nOv : Nat} (h : candidateValid p nOv = true) : nOv ≤ 2 ^ p := by
  have hpos := Nat.two_pow_pos p
  rw [candidateValid, decide_eq_true_iff] at h
  rcases h with rfl | h
  · omega
  · have hlt : nOv - 1 < 2 ^ p :=
      Nat.lt_of_lt_of_le (lt_two_pow_bitsNeeded _) (Nat.pow_le_pow_right (by omega) h)
    omega

/-- A candidate below kg leaves the best pair admissible (R163, R165). -/
theorem tryCandidate_admissible {A : List Word} {kg p : Nat} {best : Best} (hp : 1 ≤ p ∧ p ≤ kg)
    (hb : Admissible A kg best.p) : Admissible A kg (tryCandidate A kg best p).p := by
  simp only [tryCandidate]
  split
  next hc =>
    obtain ⟨hvalid, -⟩ := (Bool.and_eq_true _ _).mp hc
    exact ⟨hp.1, hp.2, le_two_pow_of_candidateValid hvalid⟩
  next => exact hb

/-- The search answers the width of the sequence (R163). -/
@[simp] theorem search_fst (A : List Word) : (search A).1 = bitsNeeded (maxOf A) := by
  unfold search
  split <;> rfl

/-- The search answers an admissible payload width (R163, R165). -/
theorem search_admissible (A : List Word) : Admissible A (search A).1 (search A).2 := by
  rw [search_fst]
  unfold search
  split
  next => exact admissible_fallBack A
  next =>
    refine List.foldlRecOn (motive := fun best : Best => Admissible A _ best.p) _ _ (admissible_fallBack A) ?_
    intro best hb p hp
    rw [List.mem_range'_1] at hp
    exact tryCandidate_admissible (by omega) hb

/-! ## What COMPRESS packs, and what `Element(i)` reads of it -/

/-- The packed state of a codec answers the values of a sequence, element by element (R115). -/
structure Holds (mode : OvfMode) (codec : Codec) (A : List Word) (c : Context) : Prop where
  kind : c.kind = kindOf codec
  length : c.n.toNat = A.length
  elements : ∀ i (h : i < A.length), element mode c i codec = .ok A[i]

/-- The context of R138 over the packed store `S`. -/
def packedSpanning (A : List Word) (S : Store) : Context :=
  { Context.reset with
    kind := .spanning, n := BitVec.ofNat 31 A.length, k := BitVec.ofNat 6 (bitsNeeded (maxOf A)),
    mainlen := BitVec.ofNat 32 (ceilDiv (A.length * bitsNeeded (maxOf A)) 32), main := S }

/-- COMPRESS.V1 leaves the context of R138 over what its loop packs. -/
theorem compressSpanning_of_pack {A : List Word} {S : Store}
    (h : packFields (bitsNeeded (maxOf A)) 0 A (zeroStore (ceilDiv (A.length * bitsNeeded (maxOf A)) 32)) = .ok S) :
    compressSpanning A = .ok (packedSpanning A S) := by
  simp only [compressSpanning, h, bind, Except.bind]
  rfl

/-- COMPRESS.V1 packs the sequence (R138, R139). -/
theorem compressSpanning_holds (A : List Word) (hn : A.length < 2 ^ 31) :
    ∃ c, compressSpanning A = .ok c ∧ ∀ mode, Holds mode .spanning A c := by
  have hk : 1 ≤ bitsNeeded (maxOf A) := one_le_bitsNeeded _
  have hk32 : bitsNeeded (maxOf A) ≤ 32 := bitsNeeded_maxOf_le A
  obtain ⟨S, hpack, hlen, -, hfield⟩ := packFields_zeroStore (bitsNeeded (maxOf A)) (by omega) A
    (ceilDiv (A.length * bitsNeeded (maxOf A)) 32) (le_mul_ceilDiv _ 32 (by omega)) (fun _ => lt_two_pow_width)
  refine ⟨_, compressSpanning_of_pack hpack, fun _ => ⟨rfl, toNat_ofNat_of_lt hn, fun i hi => ?_⟩⟩
  have hread : fieldRead S S.length (bitsNeeded (maxOf A)) i = .ok (inlineSlot A[i]) :=
    fieldRead_value (by omega) (field_in_range hi (by rw [hlen]; exact le_mul_ceilDiv _ 32 (by omega)))
      (by rw [hfield i hi, toNat_inlineSlot])
  simp only [element, getSpanning, packedSpanning]
  rw [toNat_ofNat_of_lt (show bitsNeeded (maxOf A) < 2 ^ 6 by omega),
    toNat_ofNat_of_lt (ceilDiv_fields_lt hn (by omega)), ← hlen, hread]
  exact toWord_inlineSlot _

/-- The context of R152 over the packed store `S`. -/
def packedNonSpanning (A : List Word) (S : Store) : Context :=
  { Context.reset with
    kind := .nonSpanning, n := BitVec.ofNat 31 A.length, k := BitVec.ofNat 6 (bitsNeeded (maxOf A)),
    epw := BitVec.ofNat 6 (32 / bitsNeeded (maxOf A)),
    mainlen := BitVec.ofNat 32 (ceilDiv A.length (32 / bitsNeeded (maxOf A))), main := S }

/-- COMPRESS.V2 leaves the context of R152 over what its loop packs. -/
theorem compressNonSpanning_of_pack {A : List Word} {S : Store}
    (h : packSlots (bitsNeeded (maxOf A)) (32 / bitsNeeded (maxOf A)) 0 A
      (zeroStore (ceilDiv A.length (32 / bitsNeeded (maxOf A)))) = .ok S) :
    compressNonSpanning A = .ok (packedNonSpanning A S) := by
  simp only [compressNonSpanning, h, bind, Except.bind]
  rfl

/-- COMPRESS.V2 packs the sequence (R152, R153). -/
theorem compressNonSpanning_holds (A : List Word) (hn : A.length < 2 ^ 31) :
    ∃ c, compressNonSpanning A = .ok c ∧ ∀ mode, Holds mode .nonSpanning A c := by
  have hk : 1 ≤ bitsNeeded (maxOf A) := one_le_bitsNeeded _
  have hk32 : bitsNeeded (maxOf A) ≤ 32 := bitsNeeded_maxOf_le A
  have hepw : 1 ≤ 32 / bitsNeeded (maxOf A) := Nat.div_pos hk32 hk
  have hslots : 32 / bitsNeeded (maxOf A) * bitsNeeded (maxOf A) ≤ 32 := Nat.div_mul_le_self _ _
  have hepw32 : 32 / bitsNeeded (maxOf A) ≤ 32 := Nat.div_le_self _ _
  have hfits := le_mul_ceilDiv A.length (32 / bitsNeeded (maxOf A)) hepw
  have hwords : ceilDiv A.length (32 / bitsNeeded (maxOf A)) ≤ A.length :=
    ceilDiv_le _ _ _ hepw (Nat.le_mul_of_pos_left _ hepw)
  obtain ⟨S, hpack, hlen, -, hslot⟩ := packSlots_zeroStore (bitsNeeded (maxOf A)) (32 / bitsNeeded (maxOf A)) hk
    ⟨hepw, hslots⟩ A (ceilDiv A.length (32 / bitsNeeded (maxOf A))) hfits (fun _ => lt_two_pow_width)
  refine ⟨_, compressNonSpanning_of_pack hpack, fun _ => ⟨rfl, toNat_ofNat_of_lt hn, fun i hi => ?_⟩⟩
  have hread : slotRead S S.length (bitsNeeded (maxOf A)) (32 / bitsNeeded (maxOf A)) i = .ok (inlineSlot A[i]) :=
    slotRead_value hk ⟨hepw, hslots⟩ (by rw [hlen]; exact Nat.div_lt_of_lt_mul (Nat.lt_of_lt_of_le hi hfits))
      (by rw [hslot i hi, toNat_inlineSlot])
  simp only [element, getNonSpanning, packedNonSpanning]
  rw [toNat_ofNat_of_lt (show bitsNeeded (maxOf A) < 2 ^ 6 by omega),
    toNat_ofNat_of_lt (show 32 / bitsNeeded (maxOf A) < 2 ^ 6 by omega),
    toNat_ofNat_of_lt (show ceilDiv A.length (32 / bitsNeeded (maxOf A)) < 2 ^ 32 by omega), ← hlen, hread]
  exact toWord_inlineSlot _

/-- The context of R173 over the packed stores `S` and `O`. -/
def packedOverflow (mode : OvfMode) (A : List Word) (S O : Store) : Context :=
  { Context.reset with
    kind := .overflow, n := BitVec.ofNat 31 A.length, kg := BitVec.ofNat 6 (search A).1,
    p := BitVec.ofNat 6 (search A).2, kp := BitVec.ofNat 6 ((search A).2 + 1),
    maxn := BitVec.ofNat 32 (maxInline (search A).2), m := BitVec.ofNat 31 (countOverflows (search A).2 A),
    mainlen := BitVec.ofNat 32 (ceilDiv (A.length * ((search A).2 + 1)) 32),
    ovflen := BitVec.ofNat 32 (ceilDiv (countOverflows (search A).2 A * entryWidth mode (search A).1) 32),
    main := S, ovf := O }

/-- COMPRESS.V3 leaves the context of R173 over what its loop packs. -/
theorem compressOverflow_of_pack {mode : OvfMode} {A : List Word} {S O : Store}
    (h : packOverflow (search A).2 (entryWidth mode (search A).1) 0 0 A
      (zeroStore (ceilDiv (A.length * ((search A).2 + 1)) 32))
      (zeroStore (ceilDiv (countOverflows (search A).2 A * entryWidth mode (search A).1) 32)) = .ok (S, O)) :
    compressOverflow mode A = .ok (packedOverflow mode A S O) := by
  simp only [compressOverflow, h, bind, Except.bind]
  rfl

/-- GET.V3 on a flagged slot answers the overflow entry that the slot names (R174). -/
theorem getOverflow_flagged {mode : OvfMode} {c : Context} {i : Nat} {f entry : Acc}
    (hread : fieldRead c.main c.mainlen.toNat c.kp.toNat i = .ok f) (hflag : slotFlag c.p.toNat f = true)
    (hentry : fieldRead c.ovf c.ovflen.toNat (entryWidth mode c.kg.toNat) (slotPayload c.p.toNat f).toNat = .ok entry) :
    getOverflow mode c i = toWord entry := by
  simp [getOverflow, bind, Except.bind, hread, hflag, hentry]

/-- GET.V3 on an unflagged slot answers the payload (R174). -/
theorem getOverflow_inline {mode : OvfMode} {c : Context} {i : Nat} {f : Acc}
    (hread : fieldRead c.main c.mainlen.toNat c.kp.toNat i = .ok f) (hflag : slotFlag c.p.toNat f = false) :
    getOverflow mode c i = toWord (slotPayload c.p.toNat f) := by
  simp [getOverflow, bind, Except.bind, hread, hflag]

/-- The entry width is 1 to 32 bits, and every value of the sequence fits it, in both modes (R16, R172). -/
theorem entryWidth_bounds (mode : OvfMode) (A : List Word) :
    1 ≤ entryWidth mode (search A).1 ∧ entryWidth mode (search A).1 ≤ 32 ∧
      ∀ a ∈ A, a.toNat < 2 ^ entryWidth mode (search A).1 := by
  rw [search_fst]
  cases mode with
  | kglobal => exact ⟨one_le_bitsNeeded _, bitsNeeded_maxOf_le A, fun _ => lt_two_pow_width⟩
  | word => exact ⟨by simp [entryWidth], le_rfl, fun a _ => a.isLt⟩

/-- The context of R173 answers the sequence, when its stores hold the slots and the overflow table (R174). -/
theorem packedOverflow_holds {mode : OvfMode} {A : List Word} {S O : Store} (hn : A.length < 2 ^ 31)
    (hlenS : S.length = ceilDiv (A.length * ((search A).2 + 1)) 32)
    (hlenO : O.length = ceilDiv (countOverflows (search A).2 A * entryWidth mode (search A).1) 32)
    (hslots : ∀ j (h : j < A.length), fieldNat S (j * ((search A).2 + 1)) ((search A).2 + 1) =
      ((slotValues (search A).2 0 A)[j]'(by simpa using h)).toNat)
    (hentries : ∀ e (h : e < (overflowTable (search A).2 A).length),
      fieldNat O (e * entryWidth mode (search A).1) (entryWidth mode (search A).1) =
        (overflowTable (search A).2 A)[e].toNat) :
    Holds mode .overflow A (packedOverflow mode A S O) := by
  obtain ⟨how, how32, -⟩ := entryWidth_bounds mode A
  obtain ⟨hp, hpkg, hm⟩ := search_admissible A
  have hkg : (search A).1 ≤ 32 := by rw [search_fst]; exact bitsNeeded_maxOf_le A
  have hkgReg : (packedOverflow mode A S O).kg.toNat = (search A).1 := toNat_ofNat_of_lt (by omega)
  have hpReg : (packedOverflow mode A S O).p.toNat = (search A).2 := toNat_ofNat_of_lt (by omega)
  have hkpReg : (packedOverflow mode A S O).kp.toNat = (search A).2 + 1 := toNat_ofNat_of_lt (by omega)
  have hmainReg : (packedOverflow mode A S O).mainlen.toNat = S.length := by
    rw [hlenS]; exact toNat_ofNat_of_lt (ceilDiv_fields_lt hn (by omega))
  have hovfReg : (packedOverflow mode A S O).ovflen.toNat = O.length := by
    rw [hlenO]
    exact toNat_ofNat_of_lt (ceilDiv_fields_lt (Nat.lt_of_le_of_lt List.countP_le_length hn) (by omega))
  refine ⟨rfl, toNat_ofNat_of_lt hn, fun i hi => ?_⟩
  have hread := fieldRead_value (by omega)
    (field_in_range hi (by rw [hlenS]; exact le_mul_ceilDiv _ 32 (by omega))) (hslots i hi)
  rw [slotValues_getElem _ 0 A i hi, Nat.zero_add, ← hkpReg, ← hmainReg] at hread
  simp only [element]
  by_cases ho : overflows (search A).2 A[i] = true
  · have he := overflow_index_lt ho
    have heM := Nat.lt_of_lt_of_le he hm
    rw [if_pos ho] at hread
    have hentry : fieldRead O O.length (entryWidth mode (search A).1) (countOverflows (search A).2 (A.take i)) =
        .ok (inlineSlot A[i]) := by
      refine fieldRead_value (by omega) (field_in_range he (by rw [hlenO]; exact le_mul_ceilDiv _ 32 (by omega))) ?_
      obtain ⟨hlt, heq⟩ := List.getElem?_eq_some_iff.mp (overflowTable_getElem _ A i hi ho)
      rw [hentries _ hlt, heq, toNat_inlineSlot]
    rw [getOverflow_flagged hread (by rw [hpReg]; exact slotFlag_flaggedSlot (by omega) heM)
      (by rw [hovfReg, hkgReg, hpReg, toNat_slotPayload_flaggedSlot (by omega) heM]; exact hentry)]
    exact toWord_inlineSlot _
  · have ha := (overflows_eq_false_iff _ _).mp (by simpa using ho)
    obtain ⟨hflag, hpayload⟩ := slot_inlineSlot (p := (search A).2) (by omega) ha
    rw [if_neg ho] at hread
    rw [getOverflow_inline hread (by rw [hpReg]; exact hflag), hpReg, hpayload]
    exact toWord_inlineSlot _

/-- COMPRESS.V3 packs the sequence, and packs the same MAIN under both entry widths (R16, R173). -/
theorem compressOverflow_holds (A : List Word) (hn : A.length < 2 ^ 31) :
    ∃ S, ∀ mode, ∃ O, compressOverflow mode A = .ok (packedOverflow mode A S O) ∧
      Holds mode .overflow A (packedOverflow mode A S O) := by
  obtain ⟨hp, hpkg, hm⟩ := search_admissible A
  have hkg : (search A).1 ≤ 32 := by rw [search_fst]; exact bitsNeeded_maxOf_le A
  obtain ⟨S, hpackS, hlenS, -, -, hslots⟩ := packAccs_zeroStore ((search A).2 + 1) (by omega)
    (slotValues (search A).2 0 A) (ceilDiv (A.length * ((search A).2 + 1)) 32)
    (by rw [length_slotValues]; exact le_mul_ceilDiv _ 32 (by omega))
  refine ⟨S, fun mode => ?_⟩
  obtain ⟨how, how32, hfit⟩ := entryWidth_bounds mode A
  obtain ⟨O, hpackO, hlenO, -, hentries⟩ := packFields_zeroStore (entryWidth mode (search A).1) (by omega)
    (overflowTable (search A).2 A) (ceilDiv (countOverflows (search A).2 A * entryWidth mode (search A).1) 32)
    (by rw [length_overflowTable]; exact le_mul_ceilDiv _ 32 (by omega))
    (fun a ha => hfit a (List.mem_of_mem_filter ha))
  refine ⟨O, compressOverflow_of_pack (packOverflow_eq _ _ A 0 0 _ _ S O hpackS hpackO),
    packedOverflow_holds hn hlenS hlenO (fun j h => ?_) hentries⟩
  rw [hslots j (by simpa using h), Nat.mod_eq_of_lt (slotValues_lt (by omega) hm h)]

/-- COMPRESS packs the sequence under every kind, and the contexts of the two entry widths differ at most in OVF and
OVFLEN (R16, R102). -/
theorem compressContext_holds (codec : Codec) (A : List Word) (hn : A.length < 2 ^ 31) :
    ∃ outside : Context, ∀ mode, ∃ c, compressContext mode A codec = .ok c ∧ Holds mode codec A c ∧
      { c with ovf := [], ovflen := 0 } = outside := by
  cases codec with
  | spanning =>
    obtain ⟨c, hc, hholds⟩ := compressSpanning_holds A hn
    exact ⟨_, fun mode => ⟨c, hc, hholds mode, rfl⟩⟩
  | nonSpanning =>
    obtain ⟨c, hc, hholds⟩ := compressNonSpanning_holds A hn
    exact ⟨_, fun mode => ⟨c, hc, hholds mode, rfl⟩⟩
  | overflow =>
    obtain ⟨S, hS⟩ := compressOverflow_holds A hn
    refine ⟨{ packedOverflow .word A S [] with ovflen := 0 }, fun mode => ?_⟩
    obtain ⟨O, hc, hholds⟩ := hS mode
    exact ⟨_, hc, hholds, rfl⟩

/-! ## The commands -/

/-- Under a selected kind, COMPRESS of a sequence within NMAX answers OK and commits the context it packs (R100 to
R102). -/
theorem exec_compress_of_ok {s : State} {codec : Codec} {A : List Word} {c : Context} (hk : s.ctx.kind = kindOf codec)
    (hn : A.length ≤ s.params.nmax.toNat) (hc : compressContext s.params.ovfMode A codec = .ok c) :
    exec (.compress A) s = .next ((s.commit c).respond .ok) := by
  simp only [exec, execCompress, withInstance_some s _ codec hk, if_neg (Nat.not_lt.mpr hn), hc, finish]

/-- What GET answers for an index into a sequence (R105): the value, or BoundsError past its end. -/
def getResponse (A : List Word) (index : Word) : Response :=
  if h : index.toNat < A.length then .okValue A[index.toNat] else .error .boundsError

/-- GET answers from the sequence that the packed state holds (R105). -/
theorem exec_get_of_holds {s : State} {codec : Codec} {A : List Word} (h : Holds s.params.ovfMode codec A s.ctx)
    (index : Word) : exec (.get index) s = .next (s.respond (getResponse A index)) := by
  simp only [exec, execGet, withInstance_some s _ codec h.kind, h.length, getResponse]
  by_cases hi : index.toNat < A.length
  · rw [if_neg (Nat.not_le.mpr hi), dif_pos hi, h.elements _ hi]
    rfl
  · rw [if_pos (Nat.not_lt.mp hi), dif_neg hi]
    rfl

/-- DECOMPRESS answers the sequence that the packed state holds (R104). -/
theorem exec_decompress_of_holds {s : State} {codec : Codec} {A : List Word}
    (h : Holds s.params.ovfMode codec A s.ctx) : exec .decompress s = .next (s.respond (.okSeq A)) := by
  have hread : readElements (fun i => element s.params.ovfMode s.ctx i codec) 0 A.length = .ok A := by
    rw [readElements_ok _ (fun j => A[j]?.getD 0#32) 0 A.length]
    · congr 1
      apply List.ext_getElem (by simp)
      intro j h1 h2
      simp [h2]
    · intro j _ hj
      have hj' : j < A.length := by omega
      simp [h.elements j hj', hj']
  simp only [exec, execDecompress, withInstance_some s _ codec h.kind, h.length, hread, finish]

end Sys2Proof.Machine
end

section
/-! PROOF. The obligation about the entry-width mode (spec/00_scope.md section 4, R16; spec/90_conflicts.md C5). -/

namespace Sys2Proof.Machine

/-- Settles O49: COMPRESS packs the same sequence under both modes, so both blocks' reads answer from it. -/
theorem entryWidthModeIsNotSeenByReads : Obligations.EntryWidthModeIsNotSeenByReads := by
  intro s A hk hn
  obtain ⟨codec, hcodec⟩ := exists_codec _ hk
  obtain ⟨outside, hboth⟩ := compressContext_holds codec A (Nat.lt_of_le_of_lt hn s.params.nmax.isLt)
  obtain ⟨c1, hc1, hholds1, houtside1⟩ := hboth .kglobal
  obtain ⟨c2, hc2, hholds2, houtside2⟩ := hboth .word
  refine ⟨((s.withMode .kglobal).commit c1).respond .ok, ((s.withMode .word).commit c2).respond .ok,
    exec_compress_of_ok hcodec hn hc1, exec_compress_of_ok hcodec hn hc2, houtside1.trans houtside2.symm, ?_, ?_⟩
  · exact fun i => ⟨getResponse A i, exec_get_of_holds hholds1 i, exec_get_of_holds hholds2 i⟩
  · exact ⟨.okSeq A, exec_decompress_of_holds hholds1, exec_decompress_of_holds hholds2⟩

end Sys2Proof.Machine
end

section
/-! SUPPORT. How long the stores are that a COMPRESS packs (spec/20_memory.md R57), and the obligation about their
capacities. -/

namespace Sys2Proof.Machine

/-- A register never holds more than the number it is loaded with. -/
theorem toNat_ofNat_le (w x : Nat) : (BitVec.ofNat w x).toNat ≤ x := by
  rw [BitVec.toNat_ofNat]
  exact Nat.mod_le _ _

/-- A field narrower than 34 bits for each value takes no more words than 33 bits for each do (R57). -/
theorem ceilDiv_fields_le {n w : Nat} (hw : w ≤ 33) : ceilDiv (n * w) 32 ≤ (33 * n + 31) / 32 := by
  have hbits : n * w ≤ n * 33 := Nat.mul_le_mul_left _ hw
  exact ceilDiv_le _ _ _ (by omega) (by omega)

/-- Entries of at most one word each take no more words than there are entries (R57). -/
theorem ceilDiv_entries_le {m w : Nat} (hw : w ≤ 32) : ceilDiv (m * w) 32 ≤ m := by
  have hbits : m * w ≤ m * 32 := Nat.mul_le_mul_left _ hw
  exact ceilDiv_le _ _ _ (by omega) (by omega)

/-- What COMPRESS.V1 can do: leave the context of R138 over some store. -/
theorem compressSpanning_ok {A : List Word} {c : Context} (h : compressSpanning A = .ok c) :
    ∃ S, c = packedSpanning A S := by
  cases hpack : packFields (bitsNeeded (maxOf A)) 0 A (zeroStore (ceilDiv (A.length * bitsNeeded (maxOf A)) 32)) with
  | error e => simp [compressSpanning, hpack, bind, Except.bind] at h
  | ok S =>
    rw [compressSpanning_of_pack hpack, Except.ok.injEq] at h
    exact ⟨S, h.symm⟩

/-- What COMPRESS.V2 can do: leave the context of R152 over some store. -/
theorem compressNonSpanning_ok {A : List Word} {c : Context} (h : compressNonSpanning A = .ok c) :
    ∃ S, c = packedNonSpanning A S := by
  cases hpack : packSlots (bitsNeeded (maxOf A)) (32 / bitsNeeded (maxOf A)) 0 A
      (zeroStore (ceilDiv A.length (32 / bitsNeeded (maxOf A)))) with
  | error e => simp [compressNonSpanning, hpack, bind, Except.bind] at h
  | ok S =>
    rw [compressNonSpanning_of_pack hpack, Except.ok.injEq] at h
    exact ⟨S, h.symm⟩

/-- What COMPRESS.V3 can do: leave the context of R173 over some stores. -/
theorem compressOverflow_ok {mode : OvfMode} {A : List Word} {c : Context} (h : compressOverflow mode A = .ok c) :
    ∃ S O, c = packedOverflow mode A S O := by
  cases hpack : packOverflow (search A).2 (entryWidth mode (search A).1) 0 0 A
      (zeroStore (ceilDiv (A.length * ((search A).2 + 1)) 32))
      (zeroStore (ceilDiv (countOverflows (search A).2 A * entryWidth mode (search A).1) 32)) with
  | error e => simp [compressOverflow, hpack, bind, Except.bind, -search_fst] at h
  | ok stores =>
    obtain ⟨S, O⟩ := stores
    rw [compressOverflow_of_pack hpack, Except.ok.injEq] at h
    exact ⟨S, O, h.symm⟩

/-- COMPRESS.V1 needs at most 33 bits of MAIN for each value and no OVF (R57). -/
theorem packedSpanning_lengths_le (A : List Word) (S : Store) :
    (packedSpanning A S).mainlen.toNat ≤ (33 * A.length + 31) / 32 ∧ (packedSpanning A S).ovflen.toNat ≤ A.length := by
  have hk32 := bitsNeeded_maxOf_le A
  exact ⟨(toNat_ofNat_le _ _).trans (ceilDiv_fields_le (by omega)), Nat.zero_le _⟩

/-- COMPRESS.V2 needs at most one word of MAIN for each value, since EPW is at least 1, and no OVF (R57). -/
theorem packedNonSpanning_lengths_le (A : List Word) (S : Store) :
    (packedNonSpanning A S).mainlen.toNat ≤ (33 * A.length + 31) / 32 ∧
      (packedNonSpanning A S).ovflen.toNat ≤ A.length := by
  have hepw : 1 ≤ 32 / bitsNeeded (maxOf A) := Nat.div_pos (bitsNeeded_maxOf_le A) (one_le_bitsNeeded _)
  have hwords : ceilDiv A.length (32 / bitsNeeded (maxOf A)) ≤ A.length :=
    ceilDiv_le _ _ _ hepw (Nat.le_mul_of_pos_left _ hepw)
  exact ⟨(toNat_ofNat_le _ _).trans (by omega), Nat.zero_le _⟩

/-- COMPRESS.V3 needs at most 33 bits of MAIN and one word of OVF for each value, in both entry widths (R57). -/
theorem packedOverflow_lengths_le (mode : OvfMode) (A : List Word) (S O : Store) :
    (packedOverflow mode A S O).mainlen.toNat ≤ (33 * A.length + 31) / 32 ∧
      (packedOverflow mode A S O).ovflen.toNat ≤ A.length := by
  obtain ⟨-, hpkg, -⟩ := search_admissible A
  have hkg : (search A).1 ≤ 32 := by rw [search_fst]; exact bitsNeeded_maxOf_le A
  obtain ⟨-, how32, -⟩ := entryWidth_bounds mode A
  have hm : countOverflows (search A).2 A ≤ A.length := List.countP_le_length
  exact ⟨(toNat_ofNat_le _ _).trans (ceilDiv_fields_le (by omega)),
    (toNat_ofNat_le _ _).trans ((ceilDiv_entries_le how32).trans hm)⟩

/-- Under every kind, the stores that a COMPRESS packs are within 33 bits of MAIN and one word of OVF for each value of
the sequence (R57). -/
theorem compressContext_lengths_le {mode : OvfMode} {codec : Codec} {A : List Word} {c : Context}
    (h : compressContext mode A codec = .ok c) :
    c.mainlen.toNat ≤ (33 * A.length + 31) / 32 ∧ c.ovflen.toNat ≤ A.length := by
  cases codec with
  | spanning =>
    obtain ⟨S, rfl⟩ := compressSpanning_ok h
    exact packedSpanning_lengths_le A S
  | nonSpanning =>
    obtain ⟨S, rfl⟩ := compressNonSpanning_ok h
    exact packedNonSpanning_lengths_le A S
  | overflow =>
    obtain ⟨S, O, rfl⟩ := compressOverflow_ok h
    exact packedOverflow_lengths_le mode A S O

/-- Settles O27: the stores are bounded by the sequence's length, which is at most NMAX. -/
theorem storeCapacitiesSuffice : Obligations.StoreCapacitiesSuffice := by
  intro s t A hk hn hexec
  rcases execCompress_next hexec with ⟨hnone, -⟩ | ⟨codec, -, ⟨hover, -⟩ | ⟨-, c, hc, rfl⟩⟩
  · exact absurd hnone hk
  · exact absurd hn (Nat.not_le.mpr hover)
  · obtain ⟨hmain, hovf⟩ := compressContext_lengths_le hc
    simp only [State.respond_ctx, State.commit_ctx]
    omega

end Sys2Proof.Machine
end

section
/-! SUPPORT. What keeps the block from faulting: every element of the sequence it holds can be read (spec/20_memory.md
R72). The invariant of R44 to R47 gives this property, and every command keeps it and answers. -/

namespace Sys2Proof.Machine

/-- Every element below N of the packed state can be read: no access outside a store, no illegal width (R72). -/
def Readable (mode : OvfMode) (c : Context) : Prop :=
  ∀ codec, c.kind = kindOf codec → ∀ i < c.n.toNat, ∃ v, element mode c i codec = .ok v

/-- The packed state of a state of the block can be read under the block's own entry width. -/
def State.Readable (s : State) : Prop := Machine.Readable s.params.ovfMode s.ctx

/-! ## The invariant makes every element readable -/

/-- FieldRead on a field that lies in the store answers the field's number (R125). -/
theorem fieldRead_toNat {S : Store} {w i : Nat} (hw : 1 ≤ w ∧ w ≤ 33) (hr : i * w + w ≤ 32 * S.length) :
    ∃ f, fieldRead S S.length w i = .ok f ∧ f.toNat = fieldNat S (i * w) w :=
  ⟨_, fieldRead_nat S w i hw hr, toNat_ofNat_of_lt
    (Nat.lt_of_lt_of_le (fieldNat_lt S _ w) (Nat.pow_le_pow_right (by omega) (by omega)))⟩

/-- SlotRead on a slot that lies in the store answers the slot's number (R150). -/
theorem slotRead_toNat {S : Store} {k epw i : Nat} (hk : 1 ≤ k ∧ k ≤ 32) (he : 1 ≤ epw ∧ epw * k ≤ 32)
    (hr : i / epw < S.length) :
    ∃ f, slotRead S S.length k epw i = .ok f ∧ f.toNat = fieldNat S (slotPos k epw i) k :=
  ⟨_, slotRead_nat S k epw i hk.1 he hr, toNat_ofNat_of_lt
    (Nat.lt_of_lt_of_le (fieldNat_lt S _ k) (Nat.pow_le_pow_right (by omega) (by omega)))⟩

/-- A number of at most 32 bits comes out of the accumulator as a word (R139, R174). -/
theorem toWord_of_width {v : Acc} {w : Nat} (hw : w ≤ 32) (hv : v.toNat < 2 ^ w) : ∃ a, toWord v = .ok a :=
  ⟨_, if_pos (Nat.lt_of_lt_of_le hv (Nat.pow_le_pow_right (by omega) hw))⟩

/-- The low bits of a field are the narrower field at the same place (R54). -/
theorem fieldNat_succ_mod (S : Store) (pos w : Nat) : fieldNat S pos (w + 1) % 2 ^ w = fieldNat S pos w := by
  have hlt := fieldNat_lt S pos w
  rw [fieldNat]
  split
  · rw [Nat.add_mod_right, Nat.mod_eq_of_lt hlt]
  · exact Nat.mod_eq_of_lt hlt

/-- R45 puts every field of V1 inside MAIN. -/
theorem getSpanning_of_inv {c : Context} {i : Nat} (h : SpanningInv c) (hmain : c.main.length = c.mainlen.toNat)
    (hi : i < c.n.toNat) : ∃ v, getSpanning c i = .ok v := by
  obtain ⟨hk, hk32⟩ := h.width
  have hfits : c.n.toNat * c.k.toNat ≤ 32 * c.main.length := by
    rw [hmain, h.words]
    exact le_mul_ceilDiv _ 32 (by omega)
  obtain ⟨f, hread, hf⟩ := fieldRead_toNat (by omega) (field_in_range hi hfits)
  obtain ⟨v, hv⟩ := toWord_of_width hk32 (hf ▸ fieldNat_lt _ _ _)
  rw [hmain] at hread
  exact ⟨v, by simp only [getSpanning, hread, bind, Except.bind, hv]⟩

/-- R46 puts every slot of V2 inside MAIN. -/
theorem getNonSpanning_of_inv {c : Context} {i : Nat} (h : NonSpanningInv c)
    (hmain : c.main.length = c.mainlen.toNat) (hi : i < c.n.toNat) : ∃ v, getNonSpanning c i = .ok v := by
  obtain ⟨hk, hk32⟩ := h.width
  have hepw : 1 ≤ c.epw.toNat := by rw [h.slots]; exact Nat.div_pos hk32 hk
  have hslots : c.epw.toNat * c.k.toNat ≤ 32 := by rw [h.slots]; exact Nat.div_mul_le_self _ _
  have hword : i / c.epw.toNat < c.main.length := by
    rw [hmain, h.words]
    exact Nat.div_lt_of_lt_mul (Nat.lt_of_lt_of_le hi (le_mul_ceilDiv _ _ hepw))
  obtain ⟨f, hread, hf⟩ := slotRead_toNat ⟨hk, hk32⟩ ⟨hepw, hslots⟩ hword
  obtain ⟨v, hv⟩ := toWord_of_width hk32 (hf ▸ fieldNat_lt _ _ _)
  rw [hmain] at hread
  exact ⟨v, by simp only [getNonSpanning, hread, bind, Except.bind, hv]⟩

/-- The payload of a flagged slot is an index into the overflow table, because R47 numbers the flagged slots. -/
theorem flagged_payload_lt {mode : OvfMode} {c : Context} {i : Nat} (h : OverflowInv mode c) (hi : i < c.n.toNat)
    (hflag : storeBit c.main (i * c.kp.toNat + c.p.toNat) = true) :
    fieldNat c.main (i * c.kp.toNat) c.p.toNat < c.m.toNat := by
  have hmem : i ∈ flaggedSlots c := List.mem_filter.mpr ⟨List.mem_range.mpr hi, hflag⟩
  have hpayload := List.mem_map_of_mem (f := fun i => fieldNat c.main (i * c.kp.toNat) c.p.toNat) hmem
  rwa [h.flagged, List.mem_range] at hpayload

/-- The width of an overflow entry is 1 to 32 bits (R16). -/
theorem entryWidth_range (mode : OvfMode) {kg : Nat} (hkg : 1 ≤ kg ∧ kg ≤ 32) :
    1 ≤ entryWidth mode kg ∧ entryWidth mode kg ≤ 32 := by
  cases mode with
  | kglobal => exact hkg
  | word => exact ⟨by simp [entryWidth], le_rfl⟩

/-- R47 puts every entry of the overflow table inside OVF. -/
theorem ovfEntry_of_inv {mode : OvfMode} {c : Context} {e : Nat} (h : OverflowInv mode c)
    (hovf : c.ovf.length = c.ovflen.toNat) (he : e < c.m.toNat) :
    ∃ f a, fieldRead c.ovf c.ovflen.toNat (entryWidth mode c.kg.toNat) e = .ok f ∧ toWord f = .ok a := by
  obtain ⟨hp, hpkg, hkg32⟩ := h.width
  obtain ⟨how, how32⟩ := entryWidth_range mode (kg := c.kg.toNat) (by omega)
  have hfits : c.m.toNat * entryWidth mode c.kg.toNat ≤ 32 * c.ovf.length := by
    rw [hovf, h.ovfWords]
    exact le_mul_ceilDiv _ 32 (by omega)
  obtain ⟨f, hread, hf⟩ := fieldRead_toNat (by omega) (field_in_range he hfits)
  obtain ⟨a, ha⟩ := toWord_of_width how32 (hf ▸ fieldNat_lt _ _ _)
  exact ⟨f, a, hovf ▸ hread, ha⟩

/-- R47 puts every slot of V3 inside MAIN, and the entry that a flagged one names inside OVF. -/
theorem getOverflow_of_inv {mode : OvfMode} {c : Context} {i : Nat} (h : OverflowInv mode c)
    (hmain : c.main.length = c.mainlen.toNat) (hovf : c.ovf.length = c.ovflen.toNat) (hi : i < c.n.toNat) :
    ∃ v, getOverflow mode c i = .ok v := by
  obtain ⟨hp, hpkg, hkg32⟩ := h.width
  have hkp := h.slotWidth
  have hfits : c.n.toNat * c.kp.toNat ≤ 32 * c.main.length := by
    rw [hmain, h.words]
    exact le_mul_ceilDiv _ 32 (by omega)
  obtain ⟨f, hread, hf⟩ := fieldRead_toNat (by omega) (field_in_range hi hfits)
  rw [hmain] at hread
  have hflag : slotFlag c.p.toNat f = storeBit c.main (i * c.kp.toNat + c.p.toNat) := by
    rw [slotFlag, BitVec.getLsbD, hf, testBit_fieldNat]
    simp [hkp]
  have hpayload : (slotPayload c.p.toNat f).toNat = fieldNat c.main (i * c.kp.toNat) c.p.toNat := by
    rw [toNat_slotPayload (by omega), hf, ← fieldNat_succ_mod _ _ c.p.toNat, ← hkp]
  cases hb : slotFlag c.p.toNat f with
  | true =>
    obtain ⟨entry, v, hentry, hv⟩ := ovfEntry_of_inv h hovf (flagged_payload_lt h hi (hflag ▸ hb))
    rw [← hpayload] at hentry
    exact ⟨v, (getOverflow_flagged hread hb hentry).trans hv⟩
  | false =>
    obtain ⟨v, hv⟩ := toWord_of_width (v := slotPayload c.p.toNat f) (w := c.p.toNat) (by omega)
      (hpayload ▸ fieldNat_lt _ _ _)
    exact ⟨v, (getOverflow_inline hread hb).trans hv⟩

/-- In a context that meets R44 to R47 every element can be read (R72). -/
theorem readable_of_contextInv {par : Params} {c : Context} (h : ContextInv par c) : Readable par.ovfMode c := by
  obtain ⟨hmain, hovf⟩ := (Memory.wf_iff c).mp h.stores
  intro codec hk i hi
  cases codec with
  | spanning => exact getSpanning_of_inv (h.spanning hk) hmain hi
  | nonSpanning => exact getNonSpanning_of_inv (h.nonSpanning hk) hmain hi
  | overflow => exact getOverflow_of_inv (h.overflow hk) hmain hovf hi

/-! ## Every command answers and keeps every element readable -/

/-- A kind is the kind of one codec only (R26). -/
theorem kindOf_injective {c d : Codec} (h : kindOf c = kindOf d) : c = d := by
  have hd := Codec.codecOfKind_kindOf d
  rwa [← h, Codec.codecOfKind_kindOf, Option.some.injEq] at hd

/-- A context that holds a sequence can be read (R115). -/
theorem Holds.readable {mode : OvfMode} {codec : Codec} {A : List Word} {c : Context} (h : Holds mode codec A c) :
    Readable mode c := by
  intro codec' hk i hi
  obtain rfl := kindOf_injective (h.kind.symm.trans hk)
  exact ⟨_, h.elements i (h.length ▸ hi)⟩

/-- A fresh context has no element to read (R48). -/
theorem readable_freshContext (mode : OvfMode) (codec : Codec) : Readable mode (freshContext codec) := by
  have hn : (freshContext codec).n.toNat = 0 := by cases codec <;> rfl
  intro _ _ i hi
  omega

/-- Elements that can each be read can be read one after the other (R104). -/
theorem readElements_of_forall {f : Nat → Except Fault Word} {i count : Nat}
    (h : ∀ j, i ≤ j → j < i + count → ∃ v, f j = .ok v) : ∃ values, readElements f i count = .ok values := by
  choose! g hg using h
  exact ⟨_, readElements_ok f g i count hg⟩

/-- A command completes, and leaves a state whose elements can be read. -/
def Completes (o : Result) : Prop := ∃ t : State, o = .next t ∧ t.Readable

/-- A response changes nothing that is read (R108). -/
theorem completes_respond {s : State} (h : s.Readable) (r : Response) : Completes (.next (s.respond r)) := ⟨_, rfl, h⟩

/-- A command that is dispatched on KIND completes if it completes under the kind that is selected (R118, R191). -/
theorem completes_withInstance {s : State} {f : Codec → Result} (h : s.Readable)
    (hf : ∀ codec, s.ctx.kind = kindOf codec → Completes (f codec)) : Completes (withInstance s f) := by
  by_cases hk : s.ctx.kind = .none
  · rw [withInstance_none s f hk]
    exact completes_respond h _
  · obtain ⟨codec, hcodec⟩ := exists_codec _ hk
    rw [withInstance_some s f codec hcodec]
    exact hf codec hcodec

/-- CREATE completes, and the fresh context it installs can be read (R185, R187). -/
theorem completes_execCreate {s : State} (h : s.Readable) (kind : Word) : Completes (execCreate kind s) := by
  unfold execCreate
  split
  next => exact completes_respond h _
  next codec _ => exact completes_respond (s := s.commit _) (readable_freshContext _ codec) _

/-- COMPRESS completes, since what it packs can be read back (R102, R115). -/
theorem completes_execCompress {s : State} (h : s.Readable) (A : List Word) : Completes (execCompress A s) := by
  refine completes_withInstance h fun codec _ => ?_
  split
  next => exact completes_respond h _
  next hn =>
    have hlen : A.length < 2 ^ 31 := Nat.lt_of_le_of_lt (Nat.not_lt.mp hn) s.params.nmax.isLt
    obtain ⟨_, hpacks⟩ := compressContext_holds codec A hlen
    obtain ⟨c, hc, hholds, -⟩ := hpacks s.params.ovfMode
    rw [hc]
    exact completes_respond (s := s.commit c) hholds.readable _

/-- GET completes: an index at N or above raises BoundsError, and the element of every other can be read (R105, R106). -/
theorem completes_execGet {s : State} (h : s.Readable) (index : Word) : Completes (execGet index s) := by
  refine completes_withInstance h fun codec hk => ?_
  split
  next => exact completes_respond h _
  next hi =>
    obtain ⟨v, hv⟩ := h codec hk _ (Nat.not_le.mp hi)
    rw [hv]
    exact completes_respond h _

/-- DECOMPRESS completes, since each of its N elements can be read (R104). -/
theorem completes_execDecompress {s : State} (h : s.Readable) : Completes (execDecompress s) := by
  refine completes_withInstance h fun codec hk => ?_
  obtain ⟨values, hvalues⟩ := readElements_of_forall (i := 0) (count := s.ctx.n.toNat)
    (fun j _ hj => h codec hk j (by omega))
  rw [hvalues]
  exact completes_respond h _

/-- SIZE completes, for it reads no store word (R107). -/
theorem completes_execSize {s : State} (h : s.Readable) : Completes (execSize s) :=
  completes_withInstance h fun _ _ => completes_respond h _

/-- Every command completes in a state whose elements can be read (R72). -/
theorem completes_exec {s : State} (h : s.Readable) (i : Instr) : Completes (exec i s) := by
  cases i with
  | create kind => exact completes_execCreate h kind
  | compress values => exact completes_execCompress h values
  | decompress => exact completes_execDecompress h
  | get index => exact completes_execGet h index
  | size => exact completes_execSize h

/-- A packet completes, unless the words are no packet and have no step (R97, R98). -/
theorem runPacket_completes_or_refused {s : State} (h : s.Readable) (packet : List Word) :
    Completes (runPacket packet s) ∨ ∃ r, runPacket packet s = .refused r := by
  unfold runPacket
  split
  next i _ => exact .inl (completes_exec h i)
  next => exact .inr ⟨_, rfl⟩
  next => exact .inl (completes_respond h _)
  next => exact .inl (completes_respond h _)
  next => exact .inl (completes_respond h _)

/-- A step completes or is refused, and never faults, from a state whose elements can be read (R72). -/
theorem step_completes_or_refused {s : State} (h : s.Readable) :
    Completes (step s) ∨ ∃ r, step s = .refused r := by
  unfold step runNext
  split
  next => exact .inr ⟨_, rfl⟩
  next =>
    split
    next => exact .inr ⟨_, rfl⟩
    next packet rest _ => exact runPacket_completes_or_refused (s := s.consume rest) h packet

/-! ## Runs -/

/-- A run whose first step completes goes on from the state that the step leaves. -/
theorem run_succ_of_next {s t : State} (k : Nat) (h : step s = .next t) :
    Host.Core.run Sys2Proof.core (k + 1) s = Host.Core.run Sys2Proof.core k t := by
  have hcore : Sys2Proof.core.step s = .next t := h
  simp only [Host.Core.run, hcore]

/-- A run whose first step is refused ends in that refusal. -/
theorem run_succ_of_refused {s : State} {r : Refusal} (k : Nat) (h : step s = .refused r) :
    Host.Core.run Sys2Proof.core (k + 1) s = .refused r := by
  have hcore : Sys2Proof.core.step s = .refused r := h
  simp only [Host.Core.run, hcore]

/-- No run from a state whose elements can be read faults: every step of it leaves such a state or is refused. -/
theorem safeRun_of_readable (k : Nat) {s : State} (h : s.Readable) : SafeRun k s := by
  induction k generalizing s with
  | zero =>
    intro f hf
    simp [Host.Core.run] at hf
  | succ k ih =>
    intro f
    rcases step_completes_or_refused h with ⟨t, hstep, ht⟩ | ⟨r, hstep⟩
    · rw [run_succ_of_next k hstep]
      exact ih ht f
    · rw [run_succ_of_refused k hstep]
      simp

/-- Settles O55: the invariant makes every element readable, which is what keeps a run from faulting. -/
theorem noRunFaults : Obligations.NoRunFaults :=
  fun k _ hinv => safeRun_of_readable k (readable_of_contextInv hinv.ctx)

end Sys2Proof.Machine
end

section
/-! SUPPORT. How a step meets the packet at the front of the command port: where a packet ends, which packets decode to
`illegal`, and what every step that completes does to the two ports (spec/30_encoding.md R78, R86, R90, R91, R98). -/

namespace Sys2Proof.Machine

/-! ## The packet at the front of the port -/

/-- Only a COMPRESS has payload words (R78). -/
theorem payloadLength_eq_zero {w0 w1 : Word} (h : opcodeOf w0 ≠ 0x02#8) : payloadLength w0 w1 = 0 := if_neg h

/-- A COMPRESS has as many payload words as its operand counts (R78). -/
theorem payloadLength_compress {w0 w1 : Word} (h : opcodeOf w0 = 0x02#8) : payloadLength w0 w1 = w1.toNat := if_pos h

/-- A packet is taken exactly when all its payload words are there, and they are what is taken after the head (R78). -/
theorem takePacket_cons_eq_some (w0 w1 : Word) (tail packet rest : List Word) :
    takePacket (w0 :: w1 :: tail) = some (packet, rest) ↔
      payloadLength w0 w1 ≤ tail.length ∧ packet = w0 :: w1 :: tail.take (payloadLength w0 w1) ∧
        rest = tail.drop (payloadLength w0 w1) := by
  by_cases h : payloadLength w0 w1 ≤ tail.length
  · simp [takePacket, h, eq_comm]
  · simp [takePacket, h]

/-- No packet is taken where not even its head is there (R98). -/
theorem takePacket_of_length_lt_two {ws : List Word} (h : ws.length < 2) : takePacket ws = none := by
  match ws, h with
  | [], _ => rfl
  | [_], _ => rfl

/-- No packet is taken where payload words are missing (R98). -/
theorem takePacket_of_payload_missing {w0 w1 : Word} {tail : List Word} (h : tail.length < payloadLength w0 w1) :
    takePacket (w0 :: w1 :: tail) = none := if_neg (Nat.not_le.mpr h)

/-! ## Packets that decode to `illegal` -/

/-- An opcode that no command has is rejected first, before the other bits are looked at (R91, R97). -/
theorem decode_illegalOpcode {w0 w1 : Word} {payload : List Word} (hlen : payload.length = payloadLength w0 w1)
    (hop : opcodeOf w0 = 0x00#8 ∨ 0x06#8 ≤ opcodeOf w0) : decode (w0 :: w1 :: payload) = .error .illegalOpcode := by
  simp only [decode, hlen, ne_eq, not_true_eq_false, if_false, if_pos hop]

/-- A reserved bit is rejected in a packet whose opcode is a command's (R90, R97). -/
theorem decode_reservedBits {w0 w1 : Word} {payload : List Word} (hlen : payload.length = payloadLength w0 w1)
    (hop : ¬ (opcodeOf w0 = 0x00#8 ∨ 0x06#8 ≤ opcodeOf w0)) (hres : reservedOf w0 ≠ 0#24) :
    decode (w0 :: w1 :: payload) = .error .reservedBits := by
  simp only [decode, hlen, ne_eq, not_true_eq_false, if_false, if_neg hop, if_pos hres]

/-- An operand of a command that has none is rejected (R90, R97). -/
theorem decode_operandNotZero {w0 w1 : Word} {payload : List Word} (hlen : payload.length = payloadLength w0 w1)
    (hop : ¬ (opcodeOf w0 = 0x00#8 ∨ 0x06#8 ≤ opcodeOf w0)) (hres : reservedOf w0 = 0#24)
    (hw1 : (opcodeOf w0 = 0x03#8 ∨ opcodeOf w0 = 0x05#8) ∧ w1 ≠ 0#32) :
    decode (w0 :: w1 :: payload) = .error .operandNotZero := by
  simp only [decode, hlen, hres, ne_eq, not_true_eq_false, if_false, if_neg hop, if_pos hw1]

/-! ## What a step does to the ports -/

/-- A complete packet that decodes to `illegal` raises IllegalCommand, whatever the reason is (R97, R199). -/
theorem runPacket_of_illegal {s : State} {packet : List Word} {e : DecodeError} (hd : decode packet = .error e)
    (he : e ≠ .notOnePacket) : runPacket packet s = .next (s.raise .illegalCommand) := by
  unfold runPacket
  cases e with
  | notOnePacket => exact absurd rfl he
  | illegalOpcode => rw [hd]
  | reservedBits => rw [hd]
  | operandNotZero => rw [hd]

/-- A step at a complete packet that decodes to `illegal` takes that packet and raises IllegalCommand (R78, R199). -/
theorem step_of_illegal {s : State} {w0 w1 : Word} {payload rest : List Word} {e : DecodeError}
    (hclash : s.portClash = false) (hport : s.cmdPort = w0 :: w1 :: (payload ++ rest))
    (hlen : payload.length = payloadLength w0 w1) (hd : decode (w0 :: w1 :: payload) = .error e)
    (he : e ≠ .notOnePacket) : step s = .next ((s.consume rest).raise .illegalCommand) := by
  have htake : takePacket s.cmdPort = some (w0 :: w1 :: payload, rest) := by
    rw [hport, takePacket_append w0 w1 payload rest hlen]
  rw [step_of_takePacket hclash htake, runPacket_of_illegal hd he]

/-- Without a complete packet on the port there is no step (R98). -/
theorem step_of_takePacket_none {s : State} (hclash : s.portClash = false) (h : takePacket s.cmdPort = none) :
    step s = .refused .incompletePacket := by
  simp [step, runNext, hclash, h]

/-- A command takes no words off the command port and produces exactly one response (R78, R86). -/
theorem exec_ports {i : Instr} {s t : State} (h : exec i s = .next t) :
    t.cmdPort = s.cmdPort ∧ ∃ r, t.respPort = s.respPort ++ [responseWords r] := by
  rcases exec_next h with ⟨r, rfl⟩ | ⟨c, rfl, -⟩
  · exact ⟨rfl, r, rfl⟩
  · exact ⟨rfl, .ok, rfl⟩

/-- A step that completes takes exactly the packet at the front of the port and produces exactly one response, whether
the packet is a command or not (R78, R86). -/
theorem step_ports {s t : State} (h : step s = .next t) :
    (∃ packet, takePacket s.cmdPort = some (packet, t.cmdPort)) ∧ ∃ r, t.respPort = s.respPort ++ [responseWords r] := by
  obtain ⟨-, packet, rest, htake, ⟨i, -, hexec⟩ | ⟨e, -, -, rfl⟩⟩ := step_next h
  · obtain ⟨hcmd, hresp⟩ := exec_ports hexec
    exact ⟨⟨packet, by rw [hcmd, htake, State.consume_cmdPort]⟩, hresp⟩
  · exact ⟨⟨packet, htake⟩, .error .illegalCommand, rfl⟩

/-! ## The words of a response -/

/-- The status codes are 1 to 5 (R88). -/
theorem errorCode_le (e : Error) : (errorCode e).toNat ≤ 5 := by
  cases e <;> decide

/-- A response packet begins with a status of at most 5, and an error's has nothing after it (R86, R88, R89). -/
theorem responseWords_shape (r : Response) :
    ∃ r0 results, responseWords r = r0 :: results ∧ r0.toNat ≤ 5 ∧ (r0 ≠ 0#32 → results = []) := by
  cases r with
  | ok => exact ⟨_, _, rfl, by decide, fun h => absurd rfl h⟩
  | okValue v => exact ⟨_, _, rfl, by decide, fun h => absurd rfl h⟩
  | okSize size => exact ⟨_, _, rfl, by decide, fun h => absurd rfl h⟩
  | okSeq values => exact ⟨_, _, rfl, by decide, fun h => absurd rfl h⟩
  | error e => exact ⟨_, _, rfl, errorCode_le e, fun _ => rfl⟩

/-- The two words that the result of SIZE is split into make it up, low word first (R94). -/
theorem toNat_split_words (size : BitVec 64) :
    (size.extractLsb' 0 32).toNat + 2 ^ 32 * (size.extractLsb' 32 32).toNat = size.toNat := by
  simp only [BitVec.extractLsb'_toNat, Nat.shiftRight_eq_div_pow]
  have hsize := size.isLt
  omega

/-- The number of bits allocated is exact in 64 bits, since the two length registers have 32 bits each (R35, R36,
R107). -/
theorem toNat_sizeInBits (c : Context) : (sizeInBits c).toNat = 32 * (c.mainlen.toNat + c.ovflen.toNat) := by
  have hmain := c.mainlen.isLt
  have hovf := c.ovflen.isLt
  exact toNat_ofNat_of_lt (by omega)

/-- While KIND is not NONE, SIZE answers the bits allocated (R107). -/
theorem exec_size_of_kind_ne_none {s : State} (h : s.ctx.kind ≠ .none) :
    exec .size s = .next (s.respond (.okSize (sizeInBits s.ctx))) := by
  obtain ⟨codec, hcodec⟩ := exists_codec _ h
  exact withInstance_some s _ codec hcodec

end Sys2Proof.Machine
end

section
/-! PROOF. The obligations about the packets of spec/30_encoding.md: what is taken off the command port (R78, R98), what
is rejected (R90, R91), and the response packet (R86, R94). -/

namespace Sys2Proof.Machine

/-- Settles O6: no opcode of R91 is that of COMPRESS, so the packet is its head alone, and it decodes to `illegal`. -/
theorem illegalOpcodeIsAnsweredAndChangesNothing : Obligations.IllegalOpcodeIsAnsweredAndChangesNothing := by
  intro s w0 w1 rest hclash hport hop
  have hlen : ([] : List Word).length = payloadLength w0 w1 :=
    (payloadLength_eq_zero fun h2 => absurd hop (by rw [h2]; decide)).symm
  have hdecode := decode_illegalOpcode hlen hop
  have hstep := step_of_illegal (rest := rest) hclash hport hlen hdecode (by simp)
  exact ⟨hdecode, hstep⟩

/-- Settles O7: the opcode is a command's, so the decoder comes to R90's two conditions and rejects at the first that is
violated. -/
theorem reservedBitsAreAnsweredAndChangeNothing : Obligations.ReservedBitsAreAnsweredAndChangeNothing := by
  intro s w0 w1 payload rest hclash hport hlen hlow hhigh hbad
  have hop : ¬ (opcodeOf w0 = 0x00#8 ∨ 0x06#8 ≤ opcodeOf w0) := by bv_omega
  have hdecode : ∃ e, decode (w0 :: w1 :: payload) = .error e ∧ e ≠ .notOnePacket := by
    by_cases hres : reservedOf w0 = 0#24
    · have hw1 := hbad.resolve_left (not_not_intro hres)
      exact ⟨_, decode_operandNotZero hlen hop hres hw1, by simp⟩
    · exact ⟨_, decode_reservedBits hlen hop hres, by simp⟩
  obtain ⟨e, hd, he⟩ := hdecode
  exact ⟨⟨e, hd, he⟩, step_of_illegal hclash hport hlen hd he⟩

/-- Settles O8: a step takes the packet at the front of the port, and no command takes more. -/
theorem stepConsumesExactlyOnePacket : Obligations.StepConsumesExactlyOnePacket := by
  intro s t w0 w1 rest hport hstep
  obtain ⟨⟨packet, htake⟩, -⟩ := step_ports hstep
  rw [hport, takePacket_cons_eq_some] at htake
  obtain ⟨hcomplete, -, hrest⟩ := htake
  exact ⟨hcomplete, hrest⟩

/-- Settles O13: the one response of a step is the packet of some abstract response. -/
theorem everyStepAnswersOneResponsePacket : Obligations.EveryStepAnswersOneResponsePacket := by
  intro s t hstep
  obtain ⟨-, r, hresp⟩ := step_ports hstep
  obtain ⟨r0, results, hwords, hshape⟩ := responseWords_shape r
  exact ⟨r0, results, by rw [hresp, hwords], hshape⟩

/-- Settles O43: the high word is below 64 because two stores of fewer than 2^32 words each have fewer than 2^38 bits;
the widths of the length registers give this without the invariant. -/
theorem sizeResultFitsTwoWords : Obligations.SizeResultFitsTwoWords := by
  intro s _ hk
  have hwords := (toNat_split_words (sizeInBits s.ctx)).trans (toNat_sizeInBits s.ctx)
  refine ⟨_, _, exec_size_of_kind_ne_none hk, hwords, ?_⟩
  have hmain := s.ctx.mainlen.isLt
  have hovf := s.ctx.ovflen.isLt
  omega

/-- Settles O9: a packet that lacks a word of its head or of its payload is not taken. -/
theorem incompletePacketHasNoStep : Obligations.IncompletePacketHasNoStep := by
  rintro s hclash (hshort | ⟨w0, w1, rest, hport, hop, hmissing⟩)
  · exact step_of_takePacket_none hclash (takePacket_of_length_lt_two hshort)
  · have hnone : takePacket s.cmdPort = none := by
      rw [hport]
      exact takePacket_of_payload_missing (by rwa [payloadLength_compress hop])
    exact step_of_takePacket_none hclash hnone

end Sys2Proof.Machine
end

section
/-! SUPPORT. The contract that the three kinds share (spec/40_shared_contract.md): what each check of R100 raises, what
a command answers once its checks are passed, and how many words a COMPRESS allocates (R107, R113). -/

namespace Sys2Proof.Machine

/-! ## The checks -/

/-- A packet that decodes to a command runs that command (R97). -/
theorem runPacket_of_decode {s : State} {packet : List Word} {i : Instr} (h : decode packet = .ok i) :
    runPacket packet s = exec i s := by
  simp only [runPacket, h]

/-- While KIND = NONE every command but CREATE raises NoInstance (R118). -/
theorem exec_of_kind_none {i : Instr} {s : State} (hi : ∀ kind, i ≠ .create kind) (hk : s.ctx.kind = .none) :
    exec i s = .next (s.raise .noInstance) := by
  cases i with
  | create kind => exact absurd rfl (hi kind)
  | compress A => exact withInstance_none s _ hk
  | decompress => exact withInstance_none s _ hk
  | get index => exact withInstance_none s _ hk
  | size => exact withInstance_none s _ hk

/-- A kind code up to 2 selects a codec (R80, R186). -/
theorem codecOfCode_of_le {kind : Word} (h : kind.toNat ≤ 2) : ∃ codec, codecOfCode kind = some codec := by
  have hcodes : kind = 0#32 ∨ kind = 1#32 ∨ kind = 2#32 := by bv_omega
  rcases hcodes with rfl | rfl | rfl
  · exact ⟨.spanning, rfl⟩
  · exact ⟨.nonSpanning, rfl⟩
  · exact ⟨.overflow, rfl⟩

/-- A kind code above 2 selects no codec (R187). -/
theorem codecOfCode_of_gt {kind : Word} (h : 2 < kind.toNat) : codecOfCode kind = none := by
  have hcodes : kind ≠ 0#32 ∧ kind ≠ 1#32 ∧ kind ≠ 2#32 := by bv_omega
  obtain ⟨h0, h1, h2⟩ := hcodes
  rw [codecOfCode, if_neg h0, if_neg h1, if_neg h2]

/-- CREATE with a kind code above 2 raises ConfigurationError (R187). -/
theorem exec_create_unrecognized {kind : Word} {s : State} (h : 2 < kind.toNat) :
    exec (.create kind) s = .next (s.raise .configurationError) := by
  simp only [exec, execCreate, codecOfCode_of_gt h]

/-- COMPRESS of more than NMAX values raises CapacityError (R101). -/
theorem exec_compress_above_capacity {s : State} {A : List Word} (hk : s.ctx.kind ≠ .none)
    (hn : s.params.nmax.toNat < A.length) : exec (.compress A) s = .next (s.raise .capacityError) := by
  obtain ⟨codec, hcodec⟩ := exists_codec _ hk
  simp only [exec, execCompress, withInstance_some s _ codec hcodec, if_pos hn]

/-- GET of an index at N or above raises BoundsError (R105). -/
theorem exec_get_out_of_bounds {s : State} {index : Word} (hk : s.ctx.kind ≠ .none)
    (hi : s.ctx.n.toNat ≤ index.toNat) : exec (.get index) s = .next (s.raise .boundsError) := by
  obtain ⟨codec, hcodec⟩ := exists_codec _ hk
  simp only [exec, execGet, withInstance_some s _ codec hcodec, if_pos hi]

/-- An element and BoundsError are told apart by their responses (R88, R89). -/
theorem State.respond_okValue_ne_raise_boundsError (s : State) (v : Word) :
    s.respond (.okValue v) ≠ s.raise .boundsError := by
  intro h
  have hports := congrArg State.respPort h
  simp [responseWords] at hports

/-- While KIND is not NONE, GET raises BoundsError for no other index (R105). -/
theorem exec_get_eq_boundsError_iff {s : State} {index : Word} (hk : s.ctx.kind ≠ .none) :
    exec (.get index) s = .next (s.raise .boundsError) ↔ s.ctx.n.toNat ≤ index.toNat := by
  refine ⟨fun h => ?_, exec_get_out_of_bounds hk⟩
  rcases execGet_next h with ⟨hnone, -⟩ | ⟨_, -, ⟨hi, -⟩ | ⟨-, v, -, hv⟩⟩
  · exact absurd hnone hk
  · exact hi
  · exact absurd hv.symm (s.respond_okValue_ne_raise_boundsError v)

/-- An index is below a 31-bit length exactly when it lies in [0, N) as a signed number: the indices that are negative
are at least 2^31 as unsigned numbers (R106). -/
theorem lt_length_iff_toInt (index : Word) (n : BitVec 31) :
    index.toNat < n.toNat ↔ 0 ≤ index.toInt ∧ index.toInt < n.toNat := by
  have hn := n.isLt
  have hindex := index.isLt
  rw [BitVec.toInt_eq_toNat_cond]
  split <;> omega

/-! ## What a command answers after its checks -/

/-- CREATE of a recognized kind answers OK and installs the fresh context of that kind (R185). -/
theorem exec_create_recognized {kind : Word} (h : kind.toNat ≤ 2) :
    ∃ codec, ∀ s, exec (.create kind) s = .next ((s.commit (freshContext codec)).respond .ok) := by
  obtain ⟨codec, hcodec⟩ := codecOfCode_of_le h
  exact ⟨codec, fun s => by simp only [exec, execCreate, hcodec]⟩

/-- COMPRESS of a sequence within NMAX answers OK, and commits a context that its kind packs from the sequence and the
parameters and that holds the sequence (R100 to R102). -/
theorem exec_compress_holds {s : State} {codec : Codec} {A : List Word} (hk : s.ctx.kind = kindOf codec)
    (hn : A.length ≤ s.params.nmax.toNat) :
    ∃ c, compressContext s.params.ovfMode A codec = .ok c ∧
      exec (.compress A) s = .next ((s.commit c).respond .ok) ∧ Holds s.params.ovfMode codec A c := by
  obtain ⟨_, hpacks⟩ := compressContext_holds codec A (Nat.lt_of_le_of_lt hn s.params.nmax.isLt)
  obtain ⟨c, hc, hholds, -⟩ := hpacks s.params.ovfMode
  exact ⟨c, hc, exec_compress_of_ok hk hn hc, hholds⟩

/-- A context whose elements can be read holds the sequence of them (R104, R115). -/
theorem Readable.exists_holds {mode : OvfMode} {codec : Codec} {c : Context} (h : Readable mode c)
    (hk : c.kind = kindOf codec) : ∃ B, Holds mode codec B c := by
  obtain ⟨B, hB⟩ := readElements_of_forall (f := fun i => element mode c i codec) (i := 0) (count := c.n.toNat)
    (fun j _ hj => h codec hk j (by omega))
  obtain ⟨hlen, helements⟩ := readElements_spec _ _ _ _ hB
  exact ⟨B, hk, hlen.symm, fun i hi => by simpa using helements i hi⟩

/-- A state that meets the invariant and whose KIND is not NONE holds a sequence (R72, R238). -/
theorem State.Inv.exists_holds {s : State} (h : s.Inv) (hk : s.ctx.kind ≠ .none) :
    ∃ codec B, Holds s.params.ovfMode codec B s.ctx := by
  obtain ⟨codec, hcodec⟩ := exists_codec _ hk
  exact ⟨codec, (readable_of_contextInv h.ctx).exists_holds hcodec⟩

/-- GET of an index below the length of the sequence held answers the value, for that length is below 2^31 and the index
is the operand word (R105). -/
theorem exec_get_ofNat_of_holds {s : State} {codec : Codec} {A : List Word} (h : Holds s.params.ovfMode codec A s.ctx)
    (i : Nat) (hi : i < A.length) : exec (.get (BitVec.ofNat 32 i)) s = .next (s.respond (.okValue A[i])) := by
  have hn := s.ctx.n.isLt
  have hlen := h.length
  have hindex : (BitVec.ofNat 32 i).toNat = i := toNat_ofNat_of_lt (by omega)
  simp only [exec_get_of_holds h, getResponse, hindex, hi, dif_pos]

/-! ## The words that are allocated -/

/-- The words of MAIN and OVF that a COMPRESS of the sequence allocates under each kind (R113). -/
def allocatedWords (mode : OvfMode) (A : List Word) : Codec → Nat
  | .spanning => ceilDiv (A.length * bitsNeeded (maxOf A)) 32
  | .nonSpanning => ceilDiv A.length (32 / bitsNeeded (maxOf A))
  | .overflow => ceilDiv (A.length * ((search A).2 + 1)) 32 +
      ceilDiv (countOverflows (search A).2 A * entryWidth mode (search A).1) 32

/-- The entry width is KG under the mode KGLOBAL and 32 under the mode WORD (R16). -/
theorem entryWidth_eq_ite (mode : OvfMode) (kg : Nat) : entryWidth mode kg = if mode = .kglobal then kg else 32 := by
  cases mode <;> rfl

/-- Words that hold at least one value each are no more than the values (R18). -/
theorem ceilDiv_le_self (n : Nat) {b : Nat} (hb : 1 ≤ b) : ceilDiv n b ≤ n :=
  ceilDiv_le _ _ _ hb (Nat.le_mul_of_pos_left _ hb)

/-- COMPRESS of the empty sequence allocates nothing (R112). -/
@[simp] theorem allocatedWords_nil (mode : OvfMode) (codec : Codec) : allocatedWords mode [] codec = 0 := by
  cases codec <;> simp [allocatedWords, countOverflows]

/-- The length registers hold the number of words that COMPRESS allocates: it fits their 32 bits (R35, R36). -/
theorem compressContext_lengths {mode : OvfMode} {codec : Codec} {A : List Word} {c : Context} (hn : A.length < 2 ^ 31)
    (h : compressContext mode A codec = .ok c) :
    c.mainlen.toNat + c.ovflen.toNat = allocatedWords mode A codec := by
  have hk32 := bitsNeeded_maxOf_le A
  cases codec with
  | spanning =>
    obtain ⟨S, rfl⟩ := compressSpanning_ok h
    exact toNat_ofNat_of_lt (ceilDiv_fields_lt hn (by omega))
  | nonSpanning =>
    obtain ⟨S, rfl⟩ := compressNonSpanning_ok h
    have hepw : 1 ≤ 32 / bitsNeeded (maxOf A) := Nat.div_pos hk32 (one_le_bitsNeeded _)
    have hwords := ceilDiv_le_self A.length hepw
    exact toNat_ofNat_of_lt (by omega)
  | overflow =>
    obtain ⟨S, O, rfl⟩ := compressOverflow_ok h
    obtain ⟨-, hpkg, -⟩ := search_admissible A
    obtain ⟨-, how32, -⟩ := entryWidth_bounds mode A
    have hkg : (search A).1 ≤ 32 := by rw [search_fst]; exact hk32
    have hm : countOverflows (search A).2 A < 2 ^ 31 := Nat.lt_of_le_of_lt List.countP_le_length hn
    exact congrArg₂ (· + ·) (toNat_ofNat_of_lt (ceilDiv_fields_lt hn (by omega)))
      (toNat_ofNat_of_lt (ceilDiv_fields_lt hm (by omega)))

/-- What a COMPRESS leaves has the size of the words that it allocates (R107, R113). -/
theorem compressContext_sizeInBits {mode : OvfMode} {codec : Codec} {A : List Word} {c : Context}
    (hn : A.length < 2 ^ 31) (h : compressContext mode A codec = .ok c) :
    sizeInBits c = BitVec.ofNat 64 (32 * allocatedWords mode A codec) := by
  rw [sizeInBits, compressContext_lengths hn h]

/-- In a state whose context a COMPRESS has packed, SIZE answers the bits that the COMPRESS allocates (R107, R113). -/
theorem exec_size_of_compressContext {s : State} {codec : Codec} {A : List Word} (hk : s.ctx.kind = kindOf codec)
    (hn : A.length ≤ s.params.nmax.toNat) (hc : compressContext s.params.ovfMode A codec = .ok s.ctx) :
    exec .size s = .next (s.respond (.okSize (BitVec.ofNat 64 (32 * allocatedWords s.params.ovfMode A codec)))) := by
  rw [← compressContext_sizeInBits (Nat.lt_of_le_of_lt hn s.params.nmax.isLt) hc]
  exact withInstance_some s _ codec hk

/-- The result words of SIZE are the low and the high half of the number of bits (R94). -/
theorem responseWords_okSize_ofNat (size : Nat) (h : size < 2 ^ 64) :
    responseWords (.okSize (BitVec.ofNat 64 size)) = [0#32, BitVec.ofNat 32 size, BitVec.ofNat 32 (size / 2 ^ 32)] := by
  have hlow : (BitVec.ofNat 64 size).extractLsb' 0 32 = BitVec.ofNat 32 size := by
    apply BitVec.eq_of_toNat_eq
    simp only [BitVec.extractLsb'_toNat, BitVec.toNat_ofNat, Nat.shiftRight_eq_div_pow]
    omega
  have hhigh : (BitVec.ofNat 64 size).extractLsb' 32 32 = BitVec.ofNat 32 (size / 2 ^ 32) := by
    apply BitVec.eq_of_toNat_eq
    simp only [BitVec.extractLsb'_toNat, BitVec.toNat_ofNat, Nat.shiftRight_eq_div_pow]
    omega
  rw [responseWords, hlow, hhigh]

end Sys2Proof.Machine
end

section
/-! PROOF. The obligations about the contract that the three kinds share: the order of the checks and what each raises
(R100, R101, R106, R118), the read-only commands (R104, R107, R108), and the laws of the codec (R109 to R114). -/

namespace Sys2Proof.Machine

/-- Settles O15: NoInstance is the first check of each of the four commands. -/
theorem withoutAnInstanceNothingRuns : Obligations.WithoutAnInstanceNothingRuns := by
  intro s A i hk
  exact ⟨exec_of_kind_none (by simp) hk, exec_of_kind_none (by simp) hk, exec_of_kind_none (by simp) hk,
    exec_of_kind_none (by simp) hk⟩

/-- Settles O12: one law for each check, and the exact next state of each command that passes its checks. The invariant
serves GET and DECOMPRESS alone, which read what the context holds. -/
theorem checksAreMadeInOrder : Obligations.ChecksAreMadeInOrder := by
  intro packet s
  refine ⟨fun e hd he => runPacket_of_illegal hd he, fun i hd => ?_⟩
  rw [runPacket_of_decode hd]
  refine ⟨exec_of_kind_none, ?_, ?_, ?_, ?_⟩
  · rintro kind rfl hkind
    exact exec_create_unrecognized hkind
  · rintro A rfl hk hn
    exact exec_compress_above_capacity hk hn
  · rintro j rfl hk hj
    exact exec_get_out_of_bounds hk hj
  · rintro hinv (⟨kind, rfl, hkind⟩ | ⟨hk, hcommand⟩)
    · obtain ⟨codec, hcreate⟩ := exec_create_recognized hkind
      exact ⟨_, _, hcreate s, rfl⟩
    obtain ⟨codec, B, hholds⟩ := hinv.exists_holds hk
    rcases hcommand with ⟨A, rfl, hn⟩ | rfl | ⟨j, rfl, hj⟩ | rfl
    · obtain ⟨c, -, hexec, -⟩ := exec_compress_holds hholds.kind hn
      exact ⟨_, _, hexec, rfl⟩
    · exact ⟨_, _, exec_decompress_of_holds hholds, rfl⟩
    · have hget := exec_get_of_holds hholds j
      rw [getResponse, dif_pos (hholds.length ▸ hj)] at hget
      exact ⟨_, _, hget, rfl⟩
    · exact ⟨_, _, exec_size_of_kind_ne_none hk, rfl⟩

/-- Settles O20: every kind packs a sequence within NMAX. -/
theorem compressChecksTheCapacity : Obligations.CompressChecksTheCapacity := by
  intro s A hk
  refine ⟨exec_compress_above_capacity hk, fun hn => ?_⟩
  obtain ⟨codec, hcodec⟩ := exists_codec _ hk
  obtain ⟨c, -, hexec, hholds⟩ := exec_compress_holds hcodec hn
  exact ⟨c, hexec, hholds.kind.trans hcodec.symm⟩

/-- Settles O24: the context is packed from the sequence and the entry width by the codec of KIND. -/
theorem compressDependsOnKindAndInputAlone : Obligations.CompressDependsOnKindAndInputAlone := by
  intro s1 s2 A hkinds hk hparams hn
  obtain ⟨codec, hcodec⟩ := exists_codec _ hk
  obtain ⟨c, hc, hexec, -⟩ := exec_compress_holds hcodec hn
  rw [hparams] at hn hc
  exact ⟨c, hexec, exec_compress_of_ok (hkinds ▸ hcodec) hn hc⟩

/-- Settles O35: of the commands that answer a next state only CREATE and COMPRESS commit a context. -/
theorem readOnlyCommandsChangeNothing : Obligations.ReadOnlyCommandsChangeNothing := by
  intro i s t hreads hexec
  rcases exec_next hexec with hresponse | ⟨_, -, ⟨kind, rfl⟩ | ⟨A, rfl⟩⟩
  · exact hresponse
  · simp at hreads
  · simp at hreads

/-- Settles O37: GET makes an unsigned test against N, and N is below 2^31. -/
theorem negativeIndexIsOutOfBounds : Obligations.NegativeIndexIsOutOfBounds := by
  intro s i hk
  rw [exec_get_eq_boundsError_iff hk, ← lt_length_iff_toInt, Nat.not_lt]

/-- Settles O41: under the invariant the context holds a sequence of N values, from which both commands answer. -/
theorem decompressAnswersEveryElement : Obligations.DecompressAnswersEveryElement := by
  intro s hinv hk
  obtain ⟨codec, B, hholds⟩ := hinv.exists_holds hk
  refine ⟨B, hholds.length.symm, ?_, exec_get_ofNat_of_holds hholds⟩
  rw [exec_decompress_of_holds hholds, State.respond, responseWords, ← hholds.length, BitVec.ofNat_toNat]

/-- Settles O42: two 32-bit length registers count fewer than 2^64 bits, so the two words are exact. -/
theorem sizeCountsTheAllocatedWords : Obligations.SizeCountsTheAllocatedWords := by
  intro s hk
  have hmain := s.ctx.mainlen.isLt
  have hovf := s.ctx.ovflen.isLt
  rw [exec_size_of_kind_ne_none hk, State.respond, sizeInBits, responseWords_okSize_ofNat _ (by omega)]

/-- Settles O45: COMPRESS leaves a context that holds the sequence. -/
theorem compressThenGetGivesTheElement : Obligations.CompressThenGetGivesTheElement := by
  intro s A i hi hk hn
  obtain ⟨codec, hcodec⟩ := exists_codec _ hk
  obtain ⟨c, -, hexec, hholds⟩ := exec_compress_holds hcodec hn
  exact ⟨_, hexec, exec_get_ofNat_of_holds (s := (s.commit c).respond .ok) hholds i hi⟩

/-- Settles O44: CREATE selects the codec, COMPRESS packs the sequence under it, and DECOMPRESS reads it back. -/
theorem compressThenDecompressGivesTheInput : Obligations.CompressThenDecompressGivesTheInput := by
  intro s kind A hkind hn
  obtain ⟨codec, hcreate⟩ := exec_create_recognized hkind
  obtain ⟨c, -, hexec, hholds⟩ := exec_compress_holds (s := (s.commit (freshContext codec)).respond .ok)
    (freshContext_kind codec) hn
  exact ⟨_, _, hcreate s, hexec, exec_decompress_of_holds hholds⟩

/-- Settles O46: the empty sequence is held, and no word is allocated for it. -/
theorem emptyInputGivesEmptyOutput : Obligations.EmptyInputGivesEmptyOutput := by
  intro s hk
  obtain ⟨codec, hcodec⟩ := exists_codec _ hk
  have hn : ([] : List Word).length ≤ s.params.nmax.toNat := Nat.zero_le _
  obtain ⟨c, hc, hexec, hholds⟩ := exec_compress_holds hcodec hn
  have hsize := exec_size_of_compressContext (s := (s.commit c).respond .ok) hholds.kind hn hc
  rw [allocatedWords_nil] at hsize
  exact ⟨_, hexec, exec_decompress_of_holds (s := (s.commit c).respond .ok) hholds, hsize⟩

/-- Settles O47: the size is that of the words allocated, and each clause is the count of its kind. -/
theorem sizeLaw : Obligations.SizeLaw := by
  intro s A hk hn
  obtain ⟨codec, hcodec⟩ := exists_codec _ hk
  obtain ⟨c, hc, hexec, hholds⟩ := exec_compress_holds hcodec hn
  refine ⟨_, 32 * allocatedWords s.params.ovfMode A codec, hexec,
    exec_size_of_compressContext (s := (s.commit c).respond .ok) hholds.kind hn hc, ?_, ?_, ?_⟩
  · intro h
    obtain rfl : codec = .spanning := kindOf_injective (hcodec.symm.trans h)
    rfl
  · intro h
    obtain rfl : codec = .nonSpanning := kindOf_injective (hcodec.symm.trans h)
    rfl
  · intro h
    obtain rfl : codec = .overflow := kindOf_injective (hcodec.symm.trans h)
    rw [allocatedWords, entryWidth_eq_ite]
    rfl

/-- Settles O48: under OVERFLOW each zero takes a flag bit beside its payload bit. -/
theorem overflowCanBeWorseThanSpanning : Obligations.OverflowCanBeWorseThanSpanning := by
  have hn : (List.replicate 32 0#32).length < 2 ^ 31 := by simp
  obtain ⟨_, hspanning⟩ := compressContext_holds .spanning _ hn
  obtain ⟨_, hoverflow⟩ := compressContext_holds .overflow _ hn
  obtain ⟨c1, hc1, -, -⟩ := hspanning .kglobal
  obtain ⟨c2, hc2, -, -⟩ := hoverflow .kglobal
  have hwords1 : allocatedWords .kglobal (List.replicate 32 0#32) .spanning = 1 := by decide
  have hwords2 : allocatedWords .kglobal (List.replicate 32 0#32) .overflow = 2 := by decide
  refine ⟨c1, c2, hc1, hc2, ?_, ?_⟩
  · rw [compressContext_sizeInBits hn hc1, hwords1]
  · rw [compressContext_sizeInBits hn hc2, hwords2]

end Sys2Proof.Machine
end

section
/-! SUPPORT. When a field of a store holds 0, when it holds a masked value, and when two stores agree on it, bit by bit;
and the places of two fields (spec/41_bit_primitive.md R122, R133, R134). -/

namespace Sys2Proof.Machine

/-- The bits of a field that is 0 are 0 (R54). -/
theorem storeBit_of_fieldNat_eq_zero {S : Store} {pos w t : Nat} (h : fieldNat S pos w = 0) (ht : t < w) :
    storeBit S (pos + t) = false := by
  have hbit := testBit_fieldNat S pos w t
  simpa [h, ht] using hbit.symm

/-- A field that has the low bits of a value holds the value masked to the field's width (R121). -/
theorem fieldNat_eq_masked {S : Store} {pos w : Nat} {v : Acc} (hw : w ≤ 64)
    (h : ∀ t < w, storeBit S (pos + t) = v.getLsbD t) : fieldNat S pos w = (v &&& mask w).toNat := by
  apply Nat.eq_of_testBit_eq
  intro t
  rw [testBit_fieldNat, BitVec.testBit_toNat, BitVec.getLsbD_and, getLsbD_mask w t hw]
  by_cases ht : t < w
  · simp [ht, h t ht]
  · simp [ht]

/-- Two stores that agree on a field's bits hold the same number in it (R54). -/
theorem fieldNat_congr {S S' : Store} {pos w : Nat} (h : ∀ t < w, storeBit S' (pos + t) = storeBit S (pos + t)) :
    fieldNat S' pos w = fieldNat S pos w := by
  refine eq_fieldNat S pos w _ (fieldNat_lt S' pos w) fun t ht => ?_
  rw [testBit_fieldNat, h t ht]
  simp [ht]

/-- Of two fields of one width, the one at the smaller index ends before the other begins (R134). -/
theorem field_disjoint {w i j : Nat} (h : i < j) : i * w + w ≤ j * w :=
  calc i * w + w = (i + 1) * w := (Nat.succ_mul i w).symm
    _ ≤ j * w := Nat.mul_le_mul_right w h

/-- No bit of a field is in the range of another field of that width (R134). -/
theorem not_in_other_field {w i j t : Nat} (h : i ≠ j) (ht : t < w) :
    ¬ (i * w ≤ j * w + t ∧ j * w + t < i * w + w) := by
  rcases Nat.lt_or_gt_of_ne h with hij | hji
  · have := field_disjoint (w := w) hij
    omega
  · have := field_disjoint (w := w) hji
    omega

end Sys2Proof.Machine
end

section
/-! PROOF. The obligations about the bit-addressing primitive (spec/41_bit_primitive.md sections 1 and 5, R120, R133,
R134). -/

namespace Sys2Proof.Machine

/-- Settles O31: a width holds a value exactly when the value is below its power of two, and `bitsNeeded` is the least
such width. -/
theorem bitsNeededIsTheLeastWidth : Obligations.BitsNeededIsTheLeastWidth := by
  refine ⟨rfl, fun v => ⟨one_le_bitsNeeded v, Nat.le_sub_one_of_lt (lt_two_pow_bitsNeeded v), ?_, ?_⟩⟩
  · intro w hw hv
    exact bitsNeeded_le v w hw ((Nat.le_sub_one_iff_lt (Nat.two_pow_pos w)).mp hv)
  · exact bitsNeeded_le v 32 (by omega)

/-- Settles O32: FieldWrite ORs the value's low bits into a field of zeros, so they are the field's bits. -/
theorem fieldReadsBackWhatWasWritten : Obligations.FieldReadsBackWhatWasWritten := by
  intro S w i v hw1 hw33 hr hzero
  obtain ⟨S', hwrite, hlen, hbits⟩ := fieldWrite_spec S w i v ⟨hw1, hw33⟩ hr
  have hfield : ∀ t < w, storeBit S' (i * w + t) = v.getLsbD t := by
    intro t ht
    rw [hbits, storeBit_of_fieldNat_eq_zero hzero ht]
    simp [ht]
  exact ⟨S', hwrite, hlen, fieldRead_value ⟨hw1, hw33⟩ (hlen ▸ hr) (fieldNat_eq_masked (by omega) hfield)⟩

/-- Settles O33: FieldWrite changes no bit outside its field, and the two fields share no bit. -/
theorem fieldWriteKeepsEveryOtherField : Obligations.FieldWriteKeepsEveryOtherField := by
  intro S S' w i j v hw1 hw33 hri hrj hij hwrite
  obtain ⟨S₁, hwrite₁, hlen, hbits⟩ := fieldWrite_spec S w i v ⟨hw1, hw33⟩ hri
  obtain rfl : S₁ = S' := Except.ok.inj (hwrite₁.symm.trans hwrite)
  have hfield : ∀ t < w, storeBit S₁ (j * w + t) = storeBit S (j * w + t) := by
    intro t ht
    rw [hbits]
    simp [not_in_other_field hij ht]
  have hread := fieldRead_nat S w j ⟨hw1, hw33⟩ hrj
  refine ⟨?_, _, hread⟩
  rw [fieldRead_nat S₁ w j ⟨hw1, hw33⟩ (hlen ▸ hrj), fieldNat_congr hfield, hread]

end Sys2Proof.Machine
end

section
/-! SUPPORT. V1's field writes in any order: what they leave in a store, which order they take in COMPRESS.V1's loop,
and what that loop packs at the width of the sequence; and how GET answers from an element that can be read
(spec/42_spanning_v1.md R138, R139, R146; spec/40_shared_contract.md R105). -/

namespace Sys2Proof.Machine

/-! ## The field writes, in any order -/

/-- The loop of R138 writes the fields of the sequence in ascending order: at index `i` the values left to write are
those of the sequence from `i` on. -/
theorem packFields_drop_eq_writeFieldsInOrder (w : Nat) (A : List Word) (i : Nat) (S : Store) :
    packFields w i (A.drop i) S = writeFieldsInOrder w A (List.range' i (A.length - i)) S := by
  induction hcount : A.length - i generalizing i S with
  | zero =>
    rw [List.drop_eq_nil_of_le (by omega)]
    rfl
  | succ count ih =>
    have hi : i < A.length := by omega
    simp only [List.drop_eq_getElem_cons hi, List.range'_succ, packFields, writeFieldsInOrder,
      List.getElem?_eq_getElem hi, Option.getD_some, ih (i + 1) _ (by omega)]

/-- The loop of R138 is the field writes in ascending order. -/
theorem packFields_eq_writeFieldsInOrder (w : Nat) (A : List Word) (S : Store) :
    packFields w 0 A S = writeFieldsInOrder w A (List.range A.length) S := by
  simpa [List.range_eq_range'] using packFields_drop_eq_writeFieldsInOrder w A 0 S

/-- Whether the write of field `i` of the sequence sets bit `b` of the store (R127). -/
def fieldSetsBit (w : Nat) (A : List Word) (b i : Nat) : Bool :=
  decide (i * w ≤ b ∧ b < i * w + w) && ((A[i]?.getD 0#32).setWidth 64 : Acc).getLsbD (b - i * w)

/-- The field writes, in any order, OR into each bit of the store what any of them sets there, and keep the number of
words. -/
theorem writeFieldsInOrder_spec {w : Nat} (hw : 1 ≤ w ∧ w ≤ 33) (A : List Word) (order : List Nat) (S : Store)
    (hr : ∀ i ∈ order, i * w + w ≤ 32 * S.length) :
    ∃ S', writeFieldsInOrder w A order S = .ok S' ∧ S'.length = S.length ∧
      ∀ b, storeBit S' b = (storeBit S b || order.any (fieldSetsBit w A b)) := by
  induction order generalizing S with
  | nil => exact ⟨S, rfl, rfl, by simp⟩
  | cons i rest ih =>
    obtain ⟨S₁, hwrite, hlen₁, hbits₁⟩ :=
      fieldWrite_spec S w i ((A[i]?.getD 0#32).setWidth 64) hw (hr i List.mem_cons_self)
    obtain ⟨S₂, hrest, hlen₂, hbits₂⟩ := ih S₁ fun j hj => hlen₁ ▸ hr j (List.mem_cons_of_mem i hj)
    refine ⟨S₂, ?_, hlen₂.trans hlen₁, fun b => ?_⟩
    · simp only [writeFieldsInOrder, bind, Except.bind, hwrite, hrest]
    · rw [hbits₂, hbits₁, List.any_cons, Bool.or_assoc, fieldSetsBit]

/-- Two orders of the same field writes leave the same store, for no bit depends on the order in which it is set
(R146). -/
theorem writeFieldsInOrder_perm {w : Nat} (hw : 1 ≤ w ∧ w ≤ 33) (A : List Word) {order order' : List Nat}
    (hperm : order.Perm order') (S : Store) (hr : ∀ i ∈ order, i * w + w ≤ 32 * S.length) :
    writeFieldsInOrder w A order S = writeFieldsInOrder w A order' S := by
  obtain ⟨T, hT, hlenT, hbitsT⟩ := writeFieldsInOrder_spec hw A order S hr
  obtain ⟨T', hT', hlenT', hbitsT'⟩ :=
    writeFieldsInOrder_spec hw A order' S fun i hi => hr i (hperm.mem_iff.mpr hi)
  have hstores : T = T' := store_ext T T' (hlenT.trans hlenT'.symm) fun b => by
    rw [hbitsT, hbitsT', hperm.any_eq]
  rw [hT, hT', hstores]

/-- The width of a sequence is one that the primitive is used with (R119, R124). -/
theorem bitsNeeded_maxOf_range (A : List Word) : 1 ≤ bitsNeeded (maxOf A) ∧ bitsNeeded (maxOf A) ≤ 33 :=
  ⟨one_le_bitsNeeded _, Nat.le_succ_of_le (bitsNeeded_maxOf_le A)⟩

/-- The loop of R138 at the width of the sequence: field `i` holds value `i`, and the bits after the last field
are 0. -/
theorem packFields_at_width (A : List Word) :
    ∃ S, packFields (bitsNeeded (maxOf A)) 0 A (zeroStore (ceilDiv (A.length * bitsNeeded (maxOf A)) 32)) = .ok S ∧
      S.length = ceilDiv (A.length * bitsNeeded (maxOf A)) 32 ∧
      (∀ b, A.length * bitsNeeded (maxOf A) ≤ b → storeBit S b = false) ∧
      ∀ i (h : i < A.length), fieldNat S (i * bitsNeeded (maxOf A)) (bitsNeeded (maxOf A)) = A[i].toNat :=
  packFields_zeroStore _ (bitsNeeded_maxOf_range A) A _ (le_mul_ceilDiv _ 32 (by omega)) fun _ => lt_two_pow_width

/-! ## GET -/

/-- GET of an index below N answers the element, where it can be read (R105). -/
theorem exec_get_of_element {s : State} {codec : Codec} {index v : Word} (hk : s.ctx.kind = kindOf codec)
    (hi : index.toNat < s.ctx.n.toNat) (hv : element s.params.ovfMode s.ctx index.toNat codec = .ok v) :
    exec (.get index) s = .next (s.respond (.okValue v)) := by
  simp only [exec, execGet, withInstance_some s _ codec hk, if_neg (Nat.not_le.mpr hi), hv, finish]

/-- Under R45, GET.V1 reads the field of width K at the index (R139). -/
theorem getSpanning_eq_fieldNat {c : Context} {i : Nat} (h : SpanningInv c) (hmain : c.main.length = c.mainlen.toNat)
    (hi : i < c.n.toNat) :
    getSpanning c i = .ok (BitVec.ofNat 32 (fieldNat c.main (i * c.k.toNat) c.k.toNat)) := by
  obtain ⟨hk, hk32⟩ := h.width
  have hfits : c.n.toNat * c.k.toNat ≤ 32 * c.main.length := by
    rw [hmain, h.words]
    exact le_mul_ceilDiv _ 32 (by omega)
  have hread := fieldRead_nat c.main c.k.toNat i (by omega) (field_in_range hi hfits)
  have hword : fieldNat c.main (i * c.k.toNat) c.k.toNat < 2 ^ 32 :=
    Nat.lt_of_lt_of_le (fieldNat_lt _ _ _) (Nat.pow_le_pow_right (by omega) hk32)
  rw [hmain] at hread
  simp only [getSpanning, hread, bind, Except.bind, toWord_ok _ hword]

end Sys2Proof.Machine
end

section
/-! PROOF. The obligations about the spanning codec V1 (spec/42_spanning_v1.md R138, R139, R146). -/

namespace Sys2Proof.Machine

/-- Settles O21: COMPRESS commits the context of R138 over what the loop packs, and each register holds the number it
is loaded with. -/
theorem compressSpanningPacksEveryValue : Obligations.CompressSpanningPacksEveryValue := by
  intro s A hk hn
  obtain ⟨S, hpack, hlen, hpadding, hfields⟩ := packFields_at_width A
  obtain ⟨_, hk33⟩ := bitsNeeded_maxOf_range A
  have hn31 : A.length < 2 ^ 31 := Nat.lt_of_le_of_lt hn s.params.nmax.isLt
  have hmainlen : (packedSpanning A S).mainlen.toNat = ceilDiv (A.length * bitsNeeded (maxOf A)) 32 :=
    toNat_ofNat_of_lt (ceilDiv_fields_lt hn31 hk33)
  exact ⟨packedSpanning A S, exec_compress_of_ok (codec := .spanning) hk hn (compressSpanning_of_pack hpack), rfl,
    toNat_ofNat_of_lt hn31, toNat_ofNat_of_lt (by omega), hmainlen, hlen.trans hmainlen.symm,
    rfl, rfl, rfl, rfl, rfl, rfl, rfl, rfl, hfields, hpadding⟩

/-- Settles O25: the loop is the field writes in ascending order, and every order of them leaves the same store. -/
theorem writeOrderIsNotObservable : Obligations.WriteOrderIsNotObservable := by
  intro A order hperm
  obtain ⟨S, hpack, -⟩ := packFields_at_width A
  refine ⟨S, hpack, ?_⟩
  rw [writeFieldsInOrder_perm (bitsNeeded_maxOf_range A) A hperm, ← packFields_eq_writeFieldsInOrder, hpack]
  intro i hi
  have hi' : i < A.length := List.mem_range.mp (hperm.mem_iff.mp hi)
  rw [length_zeroStore]
  exact field_in_range hi' (le_mul_ceilDiv _ 32 (by omega))

/-- Settles O38: the invariant gives R45 and the length of MAIN, under which GET.V1 reads the field. -/
theorem getSpanningAnswersTheField : Obligations.GetSpanningAnswersTheField := by
  intro s i hinv hk hi
  obtain ⟨hmain, -⟩ := (Memory.wf_iff s.ctx).mp hinv.ctx.stores
  exact exec_get_of_element (codec := .spanning) hk hi
    (getSpanning_eq_fieldNat (hinv.ctx.spanning hk) hmain hi)

end Sys2Proof.Machine
end

section
/-! SUPPORT. The slots of V2 (spec/43_non_spanning_v2.md): how many a word holds, what a write of one leaves of the
others, and what GET.V2 reads under R46 (R148, R150, R153, R158). -/

namespace Sys2Proof.Machine

/-- At every width of V2 a word holds at least one slot, and no more bits of slots than it has (R148). -/
theorem slotsPerWord_bounds {k : Nat} (hk : 1 ≤ k) (hk32 : k ≤ 32) : 1 ≤ 32 / k ∧ 32 / k * k ≤ 32 :=
  ⟨Nat.div_pos hk32 hk, Nat.div_mul_le_self 32 k⟩

/-- The word of slot `i` is one of the words that R152 allocates for more than `i` values (R149). -/
theorem slot_word_lt_ceilDiv {i n epw : Nat} (hepw : 1 ≤ epw) (hi : i < n) : i / epw < ceilDiv n epw :=
  Nat.div_lt_of_lt_mul (Nat.lt_of_lt_of_le hi (le_mul_ceilDiv n epw hepw))

/-- No bit of a slot is in the range of another slot (R158). -/
theorem not_in_other_slot {k epw i j t : Nat} (he : 1 ≤ epw ∧ epw * k ≤ 32) (h : i ≠ j) (ht : t < k) :
    ¬ (slotPos k epw i ≤ slotPos k epw j + t ∧ slotPos k epw j + t < slotPos k epw i + k) := by
  rcases Nat.lt_or_gt_of_ne h with hij | hji
  · have := slot_disjoint k epw i j he hij
    omega
  · have := slot_disjoint k epw j i he hji
    omega

/-- SlotRead on a slot past the store's end faults (R41). -/
theorem slotRead_absent {S : Store} {len k epw i : Nat} (hk : 1 ≤ k) (he : 1 ≤ epw ∧ epw * k ≤ 32)
    (hr : len ≤ i / epw) : slotRead S len k epw i = .error .absentWord := by
  simp only [slotRead, slotAddr, hk, he, and_self, if_true, memRead_absent S len _ hr, bind, Except.bind]

/-- Two stores of the same length that agree on a slot's bits read alike there, inside the store and past its end
(R150). -/
theorem slotRead_congr {S S' : Store} {k epw i : Nat} (hk : 1 ≤ k) (he : 1 ≤ epw ∧ epw * k ≤ 32)
    (hlen : S'.length = S.length)
    (h : ∀ t < k, storeBit S' (slotPos k epw i + t) = storeBit S (slotPos k epw i + t)) :
    slotRead S' S'.length k epw i = slotRead S S.length k epw i := by
  by_cases hr : i / epw < S.length
  · rw [slotRead_nat S k epw i hk he hr, slotRead_nat S' k epw i hk he (hlen ▸ hr), fieldNat_congr h]
  · have hr' : S.length ≤ i / epw := Nat.not_lt.mp hr
    rw [slotRead_absent hk he hr', slotRead_absent hk he (hlen ▸ hr')]

/-- The loop of R152 at the width of the sequence: slot `i` holds value `i`, and every bit of no slot is 0. -/
theorem packSlots_at_width (A : List Word) :
    ∃ S, packSlots (bitsNeeded (maxOf A)) (32 / bitsNeeded (maxOf A)) 0 A
        (zeroStore (ceilDiv A.length (32 / bitsNeeded (maxOf A)))) = .ok S ∧
      S.length = ceilDiv A.length (32 / bitsNeeded (maxOf A)) ∧
      (∀ b, (∀ i < A.length, ¬ (slotPos (bitsNeeded (maxOf A)) (32 / bitsNeeded (maxOf A)) i ≤ b ∧
          b < slotPos (bitsNeeded (maxOf A)) (32 / bitsNeeded (maxOf A)) i + bitsNeeded (maxOf A))) →
        storeBit S b = false) ∧
      ∀ i (h : i < A.length), fieldNat S (slotPos (bitsNeeded (maxOf A)) (32 / bitsNeeded (maxOf A)) i)
        (bitsNeeded (maxOf A)) = A[i].toNat := by
  have hk := one_le_bitsNeeded (maxOf A)
  have he := slotsPerWord_bounds hk (bitsNeeded_maxOf_le A)
  exact packSlots_zeroStore _ _ hk he A _ (le_mul_ceilDiv _ _ he.1) fun _ => lt_two_pow_width

/-- Under R46, GET.V2 reads the slot at the index (R153). -/
theorem getNonSpanning_eq_fieldNat {c : Context} {i : Nat} (h : NonSpanningInv c)
    (hmain : c.main.length = c.mainlen.toNat) (hi : i < c.n.toNat) :
    getNonSpanning c i = .ok (BitVec.ofNat 32 (fieldNat c.main (slotPos c.k.toNat c.epw.toNat i) c.k.toNat)) := by
  obtain ⟨hk, hk32⟩ := h.width
  have he : 1 ≤ c.epw.toNat ∧ c.epw.toNat * c.k.toNat ≤ 32 := h.slots ▸ slotsPerWord_bounds hk hk32
  have hin : i / c.epw.toNat < c.main.length := by
    rw [hmain, h.words]
    exact slot_word_lt_ceilDiv he.1 hi
  have hread := slotRead_nat c.main c.k.toNat c.epw.toNat i hk he hin
  have hword : fieldNat c.main (slotPos c.k.toNat c.epw.toNat i) c.k.toNat < 2 ^ 32 :=
    Nat.lt_of_lt_of_le (fieldNat_lt _ _ _) (Nat.pow_le_pow_right (by omega) hk32)
  rw [hmain] at hread
  simp only [getNonSpanning, hread, bind, Except.bind, toWord_ok _ hword]

end Sys2Proof.Machine
end

section
/-! SUPPORT. Where no field of V1 straddles two words, V2's slots are V1's fields and take as many words
(spec/43_non_spanning_v2.md R157 (f)); and a store is determined by its fields and the bits after them. -/

namespace Sys2Proof.Machine

/-- Where the width divides 32, or the slots are all in the first word, slot `i` begins where field `i` does
(R122, R149). -/
theorem slotPos_eq_fieldPos {k n i : Nat} (h : k ∣ 32 ∨ n ≤ 32 / k) (hi : i < n) :
    slotPos k (32 / k) i = i * k := by
  rcases h with hdvd | hfirst
  · calc 32 * (i / (32 / k)) + i % (32 / k) * k
        = 32 / k * k * (i / (32 / k)) + i % (32 / k) * k := by rw [Nat.div_mul_cancel hdvd]
      _ = (32 / k * (i / (32 / k)) + i % (32 / k)) * k := by ring
      _ = i * k := by rw [Nat.div_add_mod]
  · have hlt : i < 32 / k := Nat.lt_of_lt_of_le hi hfirst
    rw [slotPos, Nat.div_eq_of_lt hlt, Nat.mod_eq_of_lt hlt, Nat.mul_zero, Nat.zero_add]

/-- Where the width divides 32, or the slots are all in the first word, V1 and V2 allocate as many words
(R138, R152). -/
theorem ceilDiv_fields_eq_ceilDiv_slots {k n : Nat} (hk : 1 ≤ k) (hk32 : k ≤ 32) (h : k ∣ 32 ∨ n ≤ 32 / k) :
    ceilDiv (n * k) 32 = ceilDiv n (32 / k) := by
  obtain ⟨hepw, hslots⟩ := slotsPerWord_bounds hk hk32
  apply Nat.le_antisymm
  · refine ceilDiv_le _ _ _ (by omega) ?_
    calc n * k ≤ 32 / k * ceilDiv n (32 / k) * k := Nat.mul_le_mul_right k (le_mul_ceilDiv n _ hepw)
      _ = 32 / k * k * ceilDiv n (32 / k) := by ring
      _ ≤ 32 * ceilDiv n (32 / k) := Nat.mul_le_mul_right _ hslots
  · refine ceilDiv_le _ _ _ hepw ?_
    have hfields := le_mul_ceilDiv (n * k) 32 (by omega)
    rcases h with hdvd | hfirst
    · refine Nat.le_of_mul_le_mul_right ?_ hk
      calc n * k ≤ 32 * ceilDiv (n * k) 32 := hfields
        _ = 32 / k * k * ceilDiv (n * k) 32 := by rw [Nat.div_mul_cancel hdvd]
        _ = 32 / k * ceilDiv (n * k) 32 * k := by ring
    · rcases Nat.eq_zero_or_pos n with rfl | hn
      · exact Nat.zero_le _
      · have hbits : 0 < n * k := Nat.mul_pos hn hk
        exact Nat.le_trans hfirst (Nat.le_mul_of_pos_right _ (by omega))

/-- Stores of one length that hold the same `n` fields, and 0 in every bit after them, are the same store (R54). -/
theorem store_eq_of_fields {S T : Store} {n k : Nat} (hk : 1 ≤ k) (hlen : S.length = T.length)
    (hS : ∀ b, n * k ≤ b → storeBit S b = false) (hT : ∀ b, n * k ≤ b → storeBit T b = false)
    (h : ∀ i < n, fieldNat S (i * k) k = fieldNat T (i * k) k) : S = T := by
  refine store_ext S T hlen fun b => ?_
  by_cases hb : b < n * k
  · have hi : b / k < n := (Nat.div_lt_iff_lt_mul hk).mpr hb
    have ht : b % k < k := Nat.mod_lt b hk
    have hbit := congrArg (Nat.testBit · (b % k)) (h (b / k) hi)
    simpa [testBit_fieldNat, ht, Nat.div_add_mod'] using hbit
  · rw [hS b (Nat.not_lt.mp hb), hT b (Nat.not_lt.mp hb)]

end Sys2Proof.Machine
end

section
/-! PROOF. The obligations about the non-spanning codec V2 (spec/43_non_spanning_v2.md R152, R153, R157 (f), R158). -/

namespace Sys2Proof.Machine

/-- Settles O22: COMPRESS commits the context of R152 over what the loop packs, and each register holds the number it
is loaded with. -/
theorem compressNonSpanningPacksEveryValue : Obligations.CompressNonSpanningPacksEveryValue := by
  intro s A hk hn
  obtain ⟨S, hpack, hlen, hpadding, hslots⟩ := packSlots_at_width A
  have hepw := slotsPerWord_bounds (one_le_bitsNeeded (maxOf A)) (bitsNeeded_maxOf_le A)
  have hn31 : A.length < 2 ^ 31 := Nat.lt_of_le_of_lt hn s.params.nmax.isLt
  have hkReg : (packedNonSpanning A S).k.toNat = bitsNeeded (maxOf A) :=
    toNat_ofNat_of_lt (Nat.lt_of_le_of_lt (bitsNeeded_maxOf_le A) (by omega))
  have hepwReg : (packedNonSpanning A S).epw.toNat = 32 / bitsNeeded (maxOf A) :=
    toNat_ofNat_of_lt (Nat.lt_of_le_of_lt (Nat.div_le_self _ _) (by omega))
  have hwords : ceilDiv A.length (32 / bitsNeeded (maxOf A)) ≤ A.length := ceilDiv_le_self A.length hepw.1
  have hmainlen : (packedNonSpanning A S).mainlen.toNat = ceilDiv A.length (32 / bitsNeeded (maxOf A)) :=
    toNat_ofNat_of_lt (by omega)
  refine ⟨packedNonSpanning A S, exec_compress_of_ok (codec := .nonSpanning) hk hn (compressNonSpanning_of_pack hpack),
    rfl, toNat_ofNat_of_lt hn31, hkReg, hepwReg, ?_, hlen.trans hmainlen.symm, rfl, rfl, rfl, rfl, rfl, rfl, rfl, ?_⟩
  · rw [hmainlen, hepwReg, ceilDiv]
  · rw [hkReg, hepwReg]
    refine ⟨hslots, fun b hb => hpadding b fun i hi => ?_⟩
    have houtside := hb i hi
    rw [slotPos]
    omega

/-- Settles O26: where nothing straddles a word, slot `i` is field `i`, so the two loops leave the same values in the
same fields of stores of the same length. -/
theorem spanningAndNonSpanningAgreeWhereNothingStraddles :
    Obligations.SpanningAndNonSpanningAgreeWhereNothingStraddles := by
  intro A h
  have hk := one_le_bitsNeeded (maxOf A)
  obtain ⟨S, hpackS, hlenS, hpaddingS, hfields⟩ := packFields_at_width A
  obtain ⟨T, hpackT, hlenT, hpaddingT, hslots⟩ := packSlots_at_width A
  have hlen : S.length = T.length := by
    rw [hlenS, hlenT, ceilDiv_fields_eq_ceilDiv_slots hk (bitsNeeded_maxOf_le A) h]
  have hpaddingT' : ∀ b, A.length * bitsNeeded (maxOf A) ≤ b → storeBit T b = false := by
    refine fun b hb => hpaddingT b fun i hi => ?_
    have hend := field_disjoint (w := bitsNeeded (maxOf A)) hi
    rw [slotPos_eq_fieldPos h hi]
    omega
  have hsame : ∀ i < A.length, fieldNat S (i * bitsNeeded (maxOf A)) (bitsNeeded (maxOf A)) =
      fieldNat T (i * bitsNeeded (maxOf A)) (bitsNeeded (maxOf A)) := by
    intro i hi
    rw [hfields i hi, ← slotPos_eq_fieldPos h hi, hslots i hi]
  exact ⟨_, _, compressSpanning_of_pack hpackS, compressNonSpanning_of_pack hpackT,
    store_eq_of_fields hk hlen hpaddingS hpaddingT' hsame⟩

/-- Settles O34: SlotWrite ORs the value's low bits into a slot of zeros, and two slots share no bit. -/
theorem slotReadsBackAndKeepsEveryOtherSlot : Obligations.SlotReadsBackAndKeepsEveryOtherSlot := by
  intro S k i v hk hk32 hr hzero
  have he := slotsPerWord_bounds hk hk32
  obtain ⟨S', hwrite, hlen, hbits⟩ := slotWrite_spec S k (32 / k) i v hk he hr
  refine ⟨S', hwrite, hlen, ?_, fun j hj => ?_⟩
  · have hslot : ∀ t < k, storeBit S' (slotPos k (32 / k) i + t) = v.getLsbD t := by
      intro t ht
      rw [hbits, storeBit_of_fieldNat_eq_zero hzero ht]
      simp [ht]
    exact slotRead_value hk he (hlen ▸ hr) (fieldNat_eq_masked (by omega) hslot)
  · refine slotRead_congr hk he hlen fun t ht => ?_
    rw [hbits]
    simp [not_in_other_slot he hj.symm ht]

/-- Settles O39: the invariant gives R46 and the length of MAIN, under which GET.V2 reads the slot. -/
theorem getNonSpanningAnswersTheSlot : Obligations.GetNonSpanningAnswersTheSlot := by
  intro s i hinv hk hi
  obtain ⟨hmain, -⟩ := (Memory.wf_iff s.ctx).mp hinv.ctx.stores
  exact exec_get_of_element (codec := .nonSpanning) hk hi
    (getNonSpanning_eq_fieldNat (hinv.ctx.nonSpanning hk) hmain hi)

end Sys2Proof.Machine
end

section
/-! SUPPORT. The parameter search of V3 (spec/44_overflow_v3.md section 2): when a candidate is valid, when it displaces
the best so far, what the scan of all the candidates ends with, and how many values overflow at and below the width of
the sequence. -/

namespace Sys2Proof.Machine

/-! ## Valid candidates -/

/-- A width holds a value exactly when it is at least the value's `bitsNeeded` (R120). -/
theorem bitsNeeded_le_iff {v w : Nat} (hw : 1 ≤ w) : bitsNeeded v ≤ w ↔ v < 2 ^ w :=
  ⟨fun h => Nat.lt_of_lt_of_le (lt_two_pow_bitsNeeded v) (Nat.pow_le_pow_right (by omega) h), bitsNeeded_le v w hw⟩

/-- A candidate without exceptions is valid without test (R165). -/
@[simp] theorem candidateValid_zero (p : Nat) : candidateValid p 0 = true := by
  simp [candidateValid]

/-- A candidate with an exception is valid exactly when its largest overflow index fits p bits (R165). -/
theorem candidateValid_iff_index {p nOv : Nat} (hm : 1 ≤ nOv) :
    candidateValid p nOv = true ↔ bitsNeeded (nOv - 1) ≤ p := by
  rw [candidateValid, decide_eq_true_iff, or_iff_right (by omega)]

/-- A candidate is valid exactly when it has no more exceptions than p bits have indices (R165). -/
theorem candidateValid_iff_count {p nOv : Nat} (hp : 1 ≤ p) : candidateValid p nOv = true ↔ nOv ≤ 2 ^ p := by
  refine ⟨le_two_pow_of_candidateValid, fun h => ?_⟩
  rcases Nat.eq_zero_or_pos nOv with rfl | hm
  · exact candidateValid_zero p
  · rw [candidateValid_iff_index hm, bitsNeeded_le_iff hp]
    omega

/-! ## The scan of the candidates -/

/-- `Cost(q)` for a sequence whose width is `kg` (R166). -/
def widthCost (A : List Word) (kg q : Nat) : Nat := candidateCost A.length kg q (countOverflows q A)

/-- What one candidate does to the best so far (R163, R165): it displaces it, being valid and strictly cheaper; or it
leaves it, being invalid or no cheaper. -/
theorem tryCandidate_cases (A : List Word) (kg : Nat) (best : Best) {p : Nat} (hp : 1 ≤ p) :
    (countOverflows p A ≤ 2 ^ p ∧ widthCost A kg p < best.cost ∧
      tryCandidate A kg best p = { p := p, cost := widthCost A kg p }) ∨
    ((countOverflows p A ≤ 2 ^ p → best.cost ≤ widthCost A kg p) ∧ tryCandidate A kg best p = best) := by
  rw [← candidateValid_iff_count hp]
  by_cases h : candidateValid p (countOverflows p A) = true ∧ widthCost A kg p < best.cost
  · refine .inl ⟨h.1, h.2, if_pos ?_⟩
    rw [Bool.and_eq_true, decide_eq_true_iff]
    exact h
  · refine .inr ⟨fun hvalid => Nat.not_lt.mp fun hcost => h ⟨hvalid, hcost⟩, if_neg ?_⟩
    rw [Bool.and_eq_true, decide_eq_true_iff]
    exact h

/-- `best` holds a valid candidate of `ps` that is the cheapest of them, the smallest one in a tie (R167). -/
structure FirstCheapest (A : List Word) (kg : Nat) (ps : List Nat) (best : Best) : Prop where
  mem : best.p ∈ ps
  valid : countOverflows best.p A ≤ 2 ^ best.p
  cost : best.cost = widthCost A kg best.p
  least : ∀ q ∈ ps, countOverflows q A ≤ 2 ^ q →
    widthCost A kg best.p < widthCost A kg q ∨ (widthCost A kg best.p = widthCost A kg q ∧ best.p ≤ q)

/-- An ascending scan of candidates ends with what it began with, when no valid candidate is strictly cheaper; and
otherwise with the cheapest valid candidate, the smallest one in a tie (R163, R167). -/
theorem scan_cases (A : List Word) (kg : Nat) (ps : List Nat) (start : Best) (hpos : ∀ p ∈ ps, 1 ≤ p)
    (hasc : ps.Pairwise (· < ·)) :
    (ps.foldl (tryCandidate A kg) start = start ∧
      ∀ q ∈ ps, countOverflows q A ≤ 2 ^ q → start.cost ≤ widthCost A kg q) ∨
    (FirstCheapest A kg ps (ps.foldl (tryCandidate A kg) start) ∧
      (ps.foldl (tryCandidate A kg) start).cost < start.cost) := by
  induction ps generalizing start with
  | nil => exact .inl ⟨rfl, by simp⟩
  | cons p rest ih =>
    obtain ⟨hp, hrest⟩ := List.forall_mem_cons.mp hpos
    obtain ⟨hlt, hascRest⟩ := List.pairwise_cons.mp hasc
    rw [List.foldl_cons]
    rcases tryCandidate_cases A kg start hp with ⟨hvalid, hcheaper, heq⟩ | ⟨hkeep, heq⟩
    · rw [heq]
      rcases ih { p := p, cost := widthCost A kg p } hrest hascRest with ⟨hsame, hno⟩ | ⟨hfirst, hless⟩
      · rw [hsame]
        refine .inr ⟨⟨List.mem_cons_self, hvalid, rfl,
          List.forall_mem_cons.mpr ⟨fun _ => .inr ⟨rfl, le_rfl⟩, ?_⟩⟩, hcheaper⟩
        intro q hq hvalidq
        have hcost : widthCost A kg p ≤ widthCost A kg q := hno q hq hvalidq
        have hpq := hlt q hq
        simp only
        omega
      · have hlessp := hfirst.cost ▸ hless
        exact .inr ⟨⟨List.mem_cons_of_mem p hfirst.mem, hfirst.valid, hfirst.cost,
          List.forall_mem_cons.mpr ⟨fun _ => .inl hlessp, hfirst.least⟩⟩, Nat.lt_trans hless hcheaper⟩
    · rw [heq]
      rcases ih start hrest hascRest with ⟨hsame, hno⟩ | ⟨hfirst, hless⟩
      · exact .inl ⟨hsame, List.forall_mem_cons.mpr ⟨hkeep, hno⟩⟩
      · refine .inr ⟨⟨List.mem_cons_of_mem p hfirst.mem, hfirst.valid, hfirst.cost,
          List.forall_mem_cons.mpr ⟨fun hvalidp => .inl ?_, hfirst.least⟩⟩, hless⟩
        rw [← hfirst.cost]
        exact Nat.lt_of_lt_of_le hless (hkeep hvalidp)

/-! ## The result of the search -/

/-- The search of a sequence that is not empty answers its width, and what the scan of the candidates below the width
ends with from the baseline (R163). -/
theorem search_eq_scan {A : List Word} {kg p : Nat} (hA : A ≠ []) (h : search A = (kg, p)) :
    p = ((List.range' 1 (kg - 1)).foldl (tryCandidate A kg) { p := kg, cost := A.length * kg }).p := by
  rw [search, if_neg (fun hlen => hA (List.eq_nil_of_length_eq_zero hlen))] at h
  obtain ⟨rfl, rfl⟩ := Prod.mk.inj h
  rfl

/-- How the search of a sequence that is not empty ends (R167): it falls back on the width of the sequence, when no valid
candidate is strictly cheaper than the baseline; or it answers the cheapest valid candidate, the smallest one in a
tie. -/
theorem search_cases {A : List Word} {kg p : Nat} (hA : A ≠ []) (h : search A = (kg, p)) :
    (p = kg ∧ ∀ q, 1 ≤ q → q < kg → countOverflows q A ≤ 2 ^ q → A.length * kg ≤ widthCost A kg q) ∨
    (1 ≤ p ∧ p < kg ∧ countOverflows p A ≤ 2 ^ p ∧ widthCost A kg p < A.length * kg ∧
      ∀ q, 1 ≤ q → q < kg → countOverflows q A ≤ 2 ^ q →
        widthCost A kg p < widthCost A kg q ∨ (widthCost A kg p = widthCost A kg q ∧ p ≤ q)) := by
  have hcandidate : ∀ q, q ∈ List.range' 1 (kg - 1) ↔ 1 ≤ q ∧ q < kg := by
    intro q
    rw [List.mem_range'_1]
    omega
  rw [search_eq_scan hA h]
  rcases scan_cases A kg (List.range' 1 (kg - 1)) { p := kg, cost := A.length * kg }
      (fun q hq => ((hcandidate q).mp hq).1) List.pairwise_lt_range' with ⟨hsame, hno⟩ | ⟨hfirst, hless⟩
  · exact .inl ⟨congrArg Best.p hsame, fun q hq hqkg => hno q ((hcandidate q).mpr ⟨hq, hqkg⟩)⟩
  · obtain ⟨hp, hpkg⟩ := (hcandidate _).mp hfirst.mem
    exact .inr ⟨hp, hpkg, hfirst.valid, hfirst.cost ▸ hless,
      fun q hq hqkg => hfirst.least q ((hcandidate q).mpr ⟨hq, hqkg⟩)⟩

/-! ## How many values overflow -/

/-- At the width of the sequence no value overflows (R169). -/
theorem countOverflows_width (A : List Word) : countOverflows (bitsNeeded (maxOf A)) A = 0 := by
  rw [countOverflows, List.countP_eq_zero]
  intro a ha
  simp [(overflows_eq_false_iff _ a).mpr (lt_two_pow_width ha)]

/-- Below the width of the sequence its maximum overflows (R169). -/
theorem one_le_countOverflows {A : List Word} {q : Nat} (hA : A ≠ []) (hq : 1 ≤ q) (hlt : q < bitsNeeded (maxOf A)) :
    1 ≤ countOverflows q A := by
  obtain ⟨a, ha, hmax⟩ := maxOf_mem A hA
  refine List.countP_pos_iff.mpr ⟨a, ha, ?_⟩
  rw [← Bool.not_eq_false, overflows_eq_false_iff, hmax, ← bitsNeeded_le_iff hq]
  omega

/-- A candidate that beats the baseline leaves an element inline (R169). -/
theorem countOverflows_lt_length {A : List Word} {kg q : Nat} (h : widthCost A kg q < A.length * kg) :
    countOverflows q A < A.length :=
  Nat.lt_of_mul_lt_mul_right (Nat.lt_of_le_of_lt (Nat.le_add_left _ _) h)

end Sys2Proof.Machine
end

section
/-! SUPPORT. What COMPRESS.V3 packs with the pair of the search: the value of each slot, and the two stores that the loop
of Phase B leaves (spec/44_overflow_v3.md R171 to R173). -/

namespace Sys2Proof.Machine

/-- The number in the slot of element `i` (R171): 2^p plus the number of overflowing values before it, when it overflows,
and its value otherwise. -/
def slotNumber (p : Nat) (A : List Word) (i : Nat) (a : Word) : Nat :=
  if maxInline p < a.toNat then 2 ^ p + countOverflows p (A.take i) else a.toNat

/-- The slot values of Phase B are these numbers, when every overflow index fits p bits (R165, R171). -/
theorem toNat_slotValues {p : Nat} {A : List Word} (hp : p ≤ 32) (hm : countOverflows p A ≤ 2 ^ p) {i : Nat}
    (h : i < A.length) : ((slotValues p 0 A)[i]'(by simpa using h)).toNat = slotNumber p A i A[i] := by
  rw [slotValues_getElem p 0 A i h, Nat.zero_add, slotNumber]
  by_cases ho : overflows p A[i] = true
  · have he := Nat.lt_of_lt_of_le (overflow_index_lt ho) hm
    rw [if_pos ho, if_pos (of_decide_eq_true ho), (toNat_flaggedSlot hp he).1]
  · rw [if_neg ho, if_neg (fun hlt => ho (decide_eq_true hlt)), toNat_inlineSlot]

/-- The loop of Phase B with the pair of the search (R171 to R173): slot `i` holds its number, entry `e` is the e-th
overflowing value, and every other bit of both stores is 0. -/
theorem packOverflow_at_search (mode : OvfMode) (A : List Word) :
    ∃ S O, packOverflow (search A).2 (entryWidth mode (search A).1) 0 0 A
        (zeroStore (ceilDiv (A.length * ((search A).2 + 1)) 32))
        (zeroStore (ceilDiv (countOverflows (search A).2 A * entryWidth mode (search A).1) 32)) = .ok (S, O) ∧
      S.length = ceilDiv (A.length * ((search A).2 + 1)) 32 ∧
      O.length = ceilDiv (countOverflows (search A).2 A * entryWidth mode (search A).1) 32 ∧
      (∀ i (h : i < A.length),
        fieldNat S (i * ((search A).2 + 1)) ((search A).2 + 1) = slotNumber (search A).2 A i A[i]) ∧
      (∀ e < countOverflows (search A).2 A, (overflowTable (search A).2 A)[e]? =
        some (BitVec.ofNat 32 (fieldNat O (e * entryWidth mode (search A).1) (entryWidth mode (search A).1)))) ∧
      (∀ b, A.length * ((search A).2 + 1) ≤ b → storeBit S b = false) ∧
      ∀ b, countOverflows (search A).2 A * entryWidth mode (search A).1 ≤ b → storeBit O b = false := by
  obtain ⟨hp, hpkg, hm⟩ := search_admissible A
  have hp32 : (search A).2 ≤ 32 := hpkg.trans (search_fst A ▸ bitsNeeded_maxOf_le A)
  obtain ⟨how, how32, hfit⟩ := entryWidth_bounds mode A
  obtain ⟨S, O, hpack, hlenS, hlenO, hpaddingS, hpaddingO, hslots, hentries⟩ :=
    packOverflow_zeroStore (search A).2 (entryWidth mode (search A).1) ⟨hp, hp32⟩ ⟨how, by omega⟩ A _ _
      (le_mul_ceilDiv _ 32 (by omega)) (le_mul_ceilDiv _ 32 (by omega)) hfit
  refine ⟨S, O, hpack, hlenS, hlenO, fun i hi => ?_, fun e he => ?_, hpaddingS, hpaddingO⟩
  · rw [← toNat_slotValues hp32 hm hi]
    exact (eq_fieldNat _ _ _ _ (slotValues_lt hp32 hm hi) fun t ht => (hslots i hi t ht).symm).symm
  · rw [← length_overflowTable] at he
    rw [hentries e he, BitVec.ofNat_toNat, BitVec.setWidth_eq, List.getElem?_eq_getElem he]

end Sys2Proof.Machine
end

section
/-! PROOF. The obligations about the overflow codec V3 (spec/44_overflow_v3.md R163, R165, R167, R169, R171 to R173,
R183). -/

namespace Sys2Proof.Machine

/-- Settles O30: both tests say that the largest index is below 2^p, and a candidate that fails them does not displace
the best so far. -/
theorem indexFitsExactlyWhenCountFits : Obligations.IndexFitsExactlyWhenCountFits := by
  refine ⟨candidateValid_zero, fun p nOv hp hm => ?_, fun A kg p best hp hover => ?_⟩
  · exact ⟨candidateValid_iff_index hm,
      (bitsNeeded_le_iff hp).trans (Nat.le_sub_one_iff_lt (Nat.two_pow_pos p)).symm, candidateValid_iff_count hp⟩
  · rcases tryCandidate_cases A kg best hp with ⟨hvalid, -⟩ | ⟨-, hkept⟩
    · exact absurd hvalid (Nat.not_le.mpr hover)
    · exact hkept

/-- Settles O28: the ascending scan from the baseline ends with the first cheapest valid candidate, or where it began. -/
theorem searchFindsTheCheapestValidWidth : Obligations.SearchFindsTheCheapestValidWidth :=
  ⟨rfl, fun A hA => ⟨(search A).1, (search A).2, rfl, search_fst A, search_cases hA rfl⟩⟩

/-- Settles O29: below the width of the sequence the maximum overflows and at the width nothing does, and a search that
wins has beaten the baseline. -/
theorem searchResultBounds : Obligations.SearchResultBounds := by
  intro A hA
  obtain ⟨hp, hpkg, -⟩ := search_admissible A
  have hkg := search_fst A
  refine ⟨(search A).1, (search A).2, rfl, hp, hpkg, hkg ▸ bitsNeeded_maxOf_le A,
    fun q hq hqkg => one_le_countOverflows hA hq (hkg ▸ hqkg), fun hwin => ?_, fun hfallBack => ?_⟩
  · rcases search_cases hA rfl with ⟨hfallBack, -⟩ | ⟨-, -, -, hcheaper, -⟩
    · exact absurd hfallBack (Nat.ne_of_lt hwin)
    · refine ⟨countOverflows_lt_length hcheaper, ?_⟩
      rwa [Nat.add_comm (search A).2 1]
  · rw [hfallBack, hkg]
    exact countOverflows_width A

/-- Settles O23: COMPRESS commits the context of R173 over what the loop packs, and each register holds the number it
is loaded with. -/
theorem compressOverflowPacksEveryValue : Obligations.CompressOverflowPacksEveryValue := by
  intro s A hk hn
  obtain ⟨S, O, hpack, hlenS, hlenO, hslots, hentries, hpaddingS, hpaddingO⟩ :=
    packOverflow_at_search s.params.ovfMode A
  obtain ⟨-, hpkg, -⟩ := search_admissible A
  have hkg : (search A).1 ≤ 32 := search_fst A ▸ bitsNeeded_maxOf_le A
  obtain ⟨-, how32, -⟩ := entryWidth_bounds s.params.ovfMode A
  have hn31 : A.length < 2 ^ 31 := Nat.lt_of_le_of_lt hn s.params.nmax.isLt
  have hm31 : countOverflows (search A).2 A < 2 ^ 31 := Nat.lt_of_le_of_lt List.countP_le_length hn31
  have hmaxn : maxInline (search A).2 < 2 ^ 32 :=
    Nat.lt_of_lt_of_le (Nat.sub_one_lt (Nat.two_pow_pos _).ne') (Nat.pow_le_pow_right (by omega) (by omega))
  have hmReg : (packedOverflow s.params.ovfMode A S O).m.toNat = countOverflows (search A).2 A := toNat_ofNat_of_lt hm31
  have hmainlen := toNat_ofNat_of_lt (ceilDiv_fields_lt (w := (search A).2 + 1) hn31 (by omega))
  have hovflen := toNat_ofNat_of_lt (ceilDiv_fields_lt (w := entryWidth s.params.ovfMode (search A).1) hm31 (by omega))
  refine ⟨packedOverflow s.params.ovfMode A S O, (search A).1, (search A).2, entryWidth s.params.ovfMode (search A).1,
    rfl, entryWidth_eq_ite _ _, exec_compress_of_ok (codec := .overflow) hk hn (compressOverflow_of_pack hpack), rfl,
    toNat_ofNat_of_lt hn31, toNat_ofNat_of_lt (by omega), toNat_ofNat_of_lt (by omega), toNat_ofNat_of_lt (by omega),
    toNat_ofNat_of_lt hmaxn, hmReg, rfl, rfl, hmainlen, hlenS.trans hmainlen.symm, ?_⟩
  rw [hmReg]
  exact ⟨hovflen, hlenO.trans hovflen.symm, hslots, hentries, hpaddingS, hpaddingO⟩

end Sys2Proof.Machine
end

section
/-! SUPPORT. What CREATE answers for the code of each kind, and that the fresh context of a kind is what COMPRESS of the
empty sequence packs under it (spec/45_selector.md R185, R187; spec/10_state.md R48). -/

namespace Sys2Proof.Machine

/-- CREATE with the code of a codec answers OK and replaces the whole context by the fresh one of that codec (R185,
R189). -/
theorem exec_create_of_codecOfCode {kind : Word} {codec : Codec} (h : codecOfCode kind = some codec) (s : State) :
    exec (.create kind) s = .next ((s.commit (freshContext codec)).respond .ok) := by
  simp only [exec, execCreate, h]

/-- A kind code other than 0, 1 and 2 is above 2: the code of NONE is unrecognized like any other (R187). -/
theorem two_lt_toNat_of_ne_codes {kind : Word} (h0 : kind ≠ 0#32) (h1 : kind ≠ 1#32) (h2 : kind ≠ 2#32) :
    2 < kind.toNat := by
  bv_omega

/-- COMPRESS of the empty sequence packs the fresh context, whatever the entry-width mode (R48). -/
theorem compressContext_nil (mode : OvfMode) (codec : Codec) :
    compressContext mode [] codec = .ok (freshContext codec) := by
  cases codec with
  | spanning => rfl
  | nonSpanning => rfl
  | overflow => cases mode <;> rfl

/-- On a fresh context COMPRESS of the empty sequence adds nothing but its response (R185). -/
theorem exec_compress_nil_of_fresh {s : State} {codec : Codec} (h : s.ctx = freshContext codec) :
    exec (.compress []) s = .next (s.respond .ok) := by
  have hk : s.ctx.kind = kindOf codec := by rw [h, freshContext_kind]
  have hcommit : s.commit (freshContext codec) = s := by rw [← h]; rfl
  rw [exec_compress_of_ok hk (Nat.zero_le _) (compressContext_nil _ codec), hcommit]

end Sys2Proof.Machine
end

section
/-! PROOF. The obligations about the codec selector CREATE (spec/45_selector.md R185, R187, R190). -/

namespace Sys2Proof.Machine

/-- Settles O17: each row of the table is a fresh context, which COMPRESS of the empty sequence packs again. -/
theorem createInstallsTheFreshContext : Obligations.CreateInstallsTheFreshContext := by
  intro s
  refine ⟨exec_create_of_codecOfCode (codec := .spanning) rfl s, exec_create_of_codecOfCode (codec := .nonSpanning) rfl s,
    exec_create_of_codecOfCode (codec := .overflow) rfl s, fun c t hc hexec => ?_, fun c hc => exec_create_unrecognized hc⟩
  obtain ⟨codec, hcreate⟩ := exec_create_recognized hc
  rw [hcreate s] at hexec
  obtain rfl := Host.Outcome.next.inj hexec
  exact exec_compress_nil_of_fresh rfl

/-- Settles O18: a code other than those of the three codecs selects none. -/
theorem unrecognizedKindRaisesConfigurationError : Obligations.UnrecognizedKindRaisesConfigurationError :=
  fun _ _ h0 h1 h2 => exec_create_unrecognized (two_lt_toNat_of_ne_codes h0 h1 h2)

/-- Settles O19: the context committed is the fresh one of the codec that the code selects. -/
theorem createDependsOnTheKindAlone : Obligations.CreateDependsOnTheKindAlone := by
  intro c s1 s2 hc
  obtain ⟨codec, hcreate⟩ := exec_create_recognized hc
  exact ⟨freshContext codec, hcreate s1, hcreate s2⟩

end Sys2Proof.Machine
end

section
/-! SUPPORT. Which response stands beside a change of the context (spec/60_exceptions.md R205,
spec/40_shared_contract.md R102, spec/45_selector.md R185): the OK that CREATE and COMPRESS answer when they commit. -/

namespace Sys2Proof.Machine

/-- A command that answers anything but OK keeps the whole context (R51, R205). -/
theorem exec_keeps_ctx_or_answers_ok {i : Instr} {s t : State} (h : exec i s = .next t) :
    ∃ r, t.respPort = s.respPort ++ [responseWords r] ∧ (t.ctx = s.ctx ∨ r = .ok) := by
  rcases exec_next h with ⟨r, rfl⟩ | ⟨c, rfl, -⟩
  · exact ⟨r, rfl, .inl rfl⟩
  · exact ⟨.ok, rfl, .inr rfl⟩

/-- A step that answers anything but OK keeps the whole context, whether its packet is a command or not (R205). -/
theorem step_keeps_ctx_or_answers_ok {s t : State} (h : step s = .next t) :
    ∃ r, t.respPort = s.respPort ++ [responseWords r] ∧ (t.ctx = s.ctx ∨ r = .ok) := by
  obtain ⟨-, packet, rest, -, ⟨i, -, hexec⟩ | ⟨e, -, -, rfl⟩⟩ := step_next h
  · simpa only [State.consume_respPort, State.consume_ctx] using exec_keeps_ctx_or_answers_ok hexec
  · exact ⟨.error .illegalCommand, rfl, .inl rfl⟩

/-- A status other than 0 stands alone in its packet and is not OK's (R86, R88, R89). -/
theorem responseWords_of_status_ne_zero {r : Response} {r0 : Word} {results : List Word}
    (hwords : responseWords r = r0 :: results) (hr0 : r0 ≠ 0#32) : results = [] ∧ r ≠ .ok := by
  refine ⟨?_, ?_⟩
  · obtain ⟨r0', results', hshape, -, hnil⟩ := responseWords_shape r
    obtain ⟨rfl, rfl⟩ := List.cons.inj (hshape.symm.trans hwords)
    exact hnil hr0
  · rintro rfl
    exact hr0 (List.cons.inj hwords).1.symm

end Sys2Proof.Machine
end

section
/-! PROOF. The obligation about what an error leaves unchanged (spec/60_exceptions.md R205). -/

namespace Sys2Proof.Machine

/-- Settles O14: only a command that answers OK commits a context, and the status of OK is 0. -/
theorem errorLeavesTheStateUntouched : Obligations.ErrorLeavesTheStateUntouched := by
  intro s t r0 results hstep hport hr0
  obtain ⟨r, hresp, hctx⟩ := step_keeps_ctx_or_answers_ok hstep
  have hwords : responseWords r = r0 :: results :=
    List.singleton_inj.mp (List.append_cancel_left (hresp.symm.trans hport))
  obtain ⟨hnil, hnotOk⟩ := responseWords_of_status_ne_zero hwords hr0
  exact ⟨hctx.resolve_right hnotOk, hnil⟩

end Sys2Proof.Machine
end

section
/-! PROOF. The obligation about reset (spec/70_reset_and_hazards.md R220). -/

namespace Sys2Proof.Machine

/-- Settles O50: `Context.reset` names every register and both stores at the value of R220, and the host's reset puts
that context in place of any other. -/
theorem resetLeavesNoInstance : Obligations.ResetLeavesNoInstance := by
  refine ⟨?resetValues, fun s => ?hostReset⟩
  case resetValues => rw [State.reset_ctx, Context.reset]
  case hostReset => rw [State.hostReset_ctx, State.reset_ctx]

end Sys2Proof.Machine
end

section
/-! SUPPORT. What a COMPRESS packs meets the invariant (spec/10_state.md R44 to R47): one lemma for each kind, then the
fresh contexts, which a COMPRESS of the empty sequence packs too. -/

namespace Sys2Proof.Machine

/-! ## V1 -/

/-- A bit of a field is that bit of the field's number (R54). -/
theorem storeBit_eq_testBit_fieldNat {S : Store} {pos w t : Nat} (ht : t < w) :
    storeBit S (pos + t) = (fieldNat S pos w).testBit t := by
  simp [testBit_fieldNat, ht]

/-- The highest bit of a value's width is set, unless the value is 0, which has width 1 all the same (R120). -/
theorem testBit_bitsNeeded_sub_one {v : Nat} (hv : v ≠ 0) : v.testBit (bitsNeeded v - 1) = true := by
  rw [bitsNeeded, if_neg hv, Nat.add_sub_cancel_left]
  exact Nat.testBit_log2 hv

/-- The largest value of a sequence needs the whole width, so no narrower width would hold the sequence (R45). -/
theorem exists_value_of_full_width {A : List Word} (hA : A ≠ []) : bitsNeeded (maxOf A) = 1 ∨
    ∃ (i : Nat) (h : i < A.length), A[i].toNat.testBit (bitsNeeded (maxOf A) - 1) = true := by
  by_cases hmax : maxOf A = 0
  · exact .inl (by rw [hmax]; rfl)
  · obtain ⟨a, ha, hval⟩ := maxOf_mem A hA
    obtain ⟨i, hi, rfl⟩ := List.getElem_of_mem ha
    refine .inr ⟨i, hi, ?_⟩
    rw [hval]
    exact testBit_bitsNeeded_sub_one hmax

/-- The register K of V1 and V2 holds the width of the sequence: it fits 6 bits (R28). -/
theorem toNat_width_register (A : List Word) : (BitVec.ofNat 6 (bitsNeeded (maxOf A))).toNat = bitsNeeded (maxOf A) :=
  toNat_ofNat_of_lt (Nat.lt_of_le_of_lt (bitsNeeded_maxOf_le A) (by omega))

/-- What COMPRESS.V1 leaves is a MAIN of MAINLEN words, no OVF, and the registers and bits of R45. -/
theorem compressSpanning_inv {A : List Word} {c : Context} (hn : A.length < 2 ^ 31) (h : compressSpanning A = .ok c) :
    Memory.wf c = true ∧ SpanningInv c := by
  obtain ⟨S, hpack, hlen, hpadding, hfields⟩ := packFields_at_width A
  rw [compressSpanning_of_pack hpack, Except.ok.injEq] at h
  subst h
  have hn' : (packedSpanning A S).n.toNat = A.length := toNat_ofNat_of_lt hn
  have hk' : (packedSpanning A S).k.toNat = bitsNeeded (maxOf A) := toNat_width_register A
  have hk := one_le_bitsNeeded (maxOf A)
  have hmainlen : (packedSpanning A S).mainlen.toNat = ceilDiv (A.length * bitsNeeded (maxOf A)) 32 :=
    toNat_ofNat_of_lt (ceilDiv_fields_lt hn (bitsNeeded_maxOf_range A).2)
  refine ⟨(Memory.wf_iff _).mpr ⟨hlen.trans hmainlen.symm, rfl⟩, ?_⟩
  exact {
    width := by rw [hk']; exact ⟨hk, bitsNeeded_maxOf_le A⟩
    words := by rw [hmainlen, hn', hk']
    padding := by rw [hn', hk']; exact hpadding
    tight := by
      rw [hn', hk']
      intro hpos
      refine (exists_value_of_full_width (List.ne_nil_of_length_pos hpos)).imp_right ?_
      rintro ⟨i, hi, hbit⟩
      rw [← hfields i hi, ← storeBit_eq_testBit_fieldNat (by omega)] at hbit
      exact ⟨i, hi, hbit⟩
    unused := ⟨rfl, rfl, rfl, rfl, rfl, rfl, rfl, rfl⟩ }

/-! ## V2 -/

/-- A field whose bits are all 0 holds 0 (R54). -/
theorem fieldNat_eq_zero {S : Store} {pos w : Nat} (h : ∀ t < w, storeBit S (pos + t) = false) :
    fieldNat S pos w = 0 :=
  (eq_fieldNat S pos w 0 (Nat.two_pow_pos w) fun t ht => by rw [h t ht, Nat.zero_testBit]).symm

/-- The bits of a word after its last slot are in no slot (R46, R148). -/
theorem not_in_slot_of_ge {k epw b : Nat} (he : 1 ≤ epw ∧ epw * k ≤ 32) (hb : epw * k ≤ b % 32) (i : Nat) :
    ¬ (slotPos k epw i ≤ b ∧ b < slotPos k epw i + k) := by
  have hlast : i % epw * k + k ≤ epw * k :=
    calc i % epw * k + k = (i % epw + 1) * k := (Nat.succ_mul _ k).symm
      _ ≤ epw * k := Nat.mul_le_mul_right k (Nat.mod_lt i he.1)
  rw [slotPos]
  omega

/-- What COMPRESS.V2 leaves is a MAIN of MAINLEN words, no OVF, and the registers and bits of R46. -/
theorem compressNonSpanning_inv {A : List Word} {c : Context} (hn : A.length < 2 ^ 31)
    (h : compressNonSpanning A = .ok c) : Memory.wf c = true ∧ NonSpanningInv c := by
  obtain ⟨S, hpack, hlen, hpadding, -⟩ := packSlots_at_width A
  rw [compressNonSpanning_of_pack hpack, Except.ok.injEq] at h
  subst h
  have hk := one_le_bitsNeeded (maxOf A)
  have he := slotsPerWord_bounds hk (bitsNeeded_maxOf_le A)
  have hn' : (packedNonSpanning A S).n.toNat = A.length := toNat_ofNat_of_lt hn
  have hk' : (packedNonSpanning A S).k.toNat = bitsNeeded (maxOf A) := toNat_width_register A
  have hepw : (packedNonSpanning A S).epw.toNat = 32 / bitsNeeded (maxOf A) :=
    toNat_ofNat_of_lt (Nat.lt_of_le_of_lt (Nat.div_le_self _ _) (by omega))
  have hmainlen : (packedNonSpanning A S).mainlen.toNat = ceilDiv A.length (32 / bitsNeeded (maxOf A)) :=
    toNat_ofNat_of_lt (Nat.lt_of_le_of_lt (ceilDiv_le_self A.length he.1) (by omega))
  refine ⟨(Memory.wf_iff _).mpr ⟨hlen.trans hmainlen.symm, rfl⟩, ?_⟩
  exact {
    width := by rw [hk']; exact ⟨hk, bitsNeeded_maxOf_le A⟩
    slots := by rw [hepw, hk']
    words := by rw [hmainlen, hn', hepw]
    padding := by
      rw [hepw, hk']
      exact fun b hb => hpadding b fun i _ => not_in_slot_of_ge he hb i
    lastWord := by
      rw [hn', hepw, hk']
      exact fun i hi => fieldNat_eq_zero fun t ht => hpadding _ fun j hj => not_in_other_slot he (by omega) ht
    unused := ⟨rfl, rfl, rfl, rfl, rfl, rfl, rfl⟩ }

/-! ## V3 -/

/-- The elements that satisfy `P`, each numbered by how many of them come before it, are numbered consecutively
from 0. -/
theorem ranks_eq_range {α : Type} (P : α → Bool) (A : List α) :
    ((List.range A.length).filter fun i => A[i]?.any P).map (fun i => (A.take i).countP P) =
      List.range (A.countP P) := by
  induction A using List.reverseRecOn with
  | nil => rfl
  | append_singleton A a ih =>
    have hfilter : (List.range A.length).filter (fun i => (A ++ [a])[i]?.any P) =
        (List.range A.length).filter fun i => A[i]?.any P :=
      List.filter_congr fun i hi => by rw [List.getElem?_append_left (List.mem_range.mp hi)]
    have hmap : ((List.range A.length).filter fun i => A[i]?.any P).map (fun i => ((A ++ [a]).take i).countP P) =
        ((List.range A.length).filter fun i => A[i]?.any P).map (fun i => (A.take i).countP P) := by
      refine List.map_congr_left fun i hi => ?_
      have hlt := List.mem_range.mp (List.mem_of_mem_filter hi)
      rw [List.take_append_of_le_length (Nat.le_of_lt hlt)]
    rw [List.length_append, List.length_singleton, List.range_succ, List.filter_append, List.map_append, hfilter, hmap,
      ih, List.countP_append]
    by_cases ha : P a = true
    · simp [ha, List.range_succ]
    · simp [ha]

/-- The flag bit of a slot's number says whether the element overflows (R160, R171). -/
theorem testBit_slotNumber {p i : Nat} {A : List Word} (hm : countOverflows p A ≤ 2 ^ p) (hi : i < A.length) :
    (slotNumber p A i A[i]).testBit p = overflows p A[i] := by
  rw [slotNumber]
  cases ho : overflows p A[i] with
  | true =>
    rw [if_pos (of_decide_eq_true ho), Nat.testBit_two_pow_add_eq,
      Nat.testBit_lt_two_pow (Nat.lt_of_lt_of_le (overflow_index_lt ho) hm)]
    rfl
  | false =>
    rw [if_neg (of_decide_eq_false ho)]
    exact Nat.testBit_lt_two_pow ((overflows_eq_false_iff p _).mp ho)

/-- The payload of an overflowing element's slot is its overflow index (R171). -/
theorem slotNumber_mod {p i : Nat} {A : List Word} (hm : countOverflows p A ≤ 2 ^ p) (hi : i < A.length)
    (ho : overflows p A[i] = true) : slotNumber p A i A[i] % 2 ^ p = countOverflows p (A.take i) := by
  rw [slotNumber, if_pos (of_decide_eq_true ho), Nat.add_mod_left,
    Nat.mod_eq_of_lt (Nat.lt_of_lt_of_le (overflow_index_lt ho) hm)]

/-- In a store that holds the slots of Phase B, the payloads of the flagged slots are the overflow indices in ascending
order (R47, R171). -/
theorem flagged_payloads_eq_range {S : Store} {p : Nat} {A : List Word} (hm : countOverflows p A ≤ 2 ^ p)
    (hslots : ∀ i (h : i < A.length), fieldNat S (i * (p + 1)) (p + 1) = slotNumber p A i A[i]) :
    ((List.range A.length).filter fun i => storeBit S (i * (p + 1) + p)).map
      (fun i => fieldNat S (i * (p + 1)) p) = List.range (countOverflows p A) := by
  have hflag : ∀ i (h : i < A.length), storeBit S (i * (p + 1) + p) = overflows p A[i] := fun i hi => by
    rw [storeBit_eq_testBit_fieldNat (Nat.lt_succ_self p), hslots i hi, testBit_slotNumber hm hi]
  rw [countOverflows, ← ranks_eq_range]
  have hfilter : (List.range A.length).filter (fun i => storeBit S (i * (p + 1) + p)) =
      (List.range A.length).filter fun i => A[i]?.any (overflows p) := by
    refine List.filter_congr fun i hi => ?_
    have hlt := List.mem_range.mp hi
    rw [hflag i hlt, List.getElem?_eq_getElem hlt, Option.any_some]
  rw [hfilter]
  refine List.map_congr_left fun i hi => ?_
  obtain ⟨hrange, ho⟩ := List.mem_filter.mp hi
  have hlt := List.mem_range.mp hrange
  rw [List.getElem?_eq_getElem hlt, Option.any_some] at ho
  rw [← fieldNat_succ_mod, hslots i hlt, slotNumber_mod hm hlt ho]
  rfl

/-- The entries of the overflow table are the overflowing values: above MAXN, and within the width of the sequence
(R47, R172). -/
theorem overflowTable_entry_bounds {p e : Nat} {A : List Word} {a : Word} (h : (overflowTable p A)[e]? = some a) :
    maxInline p < a.toNat ∧ a.toNat < 2 ^ bitsNeeded (maxOf A) := by
  obtain ⟨ha, ho⟩ := List.mem_filter.mp (List.mem_of_getElem? h)
  exact ⟨of_decide_eq_true ho, lt_two_pow_width ha⟩

/-- The registers of R173 hold the numbers they are loaded with: each fits its width. -/
theorem packedOverflow_registers (mode : OvfMode) {A : List Word} (hn : A.length < 2 ^ 31) (S O : Store) :
    (packedOverflow mode A S O).n.toNat = A.length ∧
    (packedOverflow mode A S O).kg.toNat = (search A).1 ∧
    (packedOverflow mode A S O).p.toNat = (search A).2 ∧
    (packedOverflow mode A S O).kp.toNat = (search A).2 + 1 ∧
    (packedOverflow mode A S O).maxn.toNat = maxInline (search A).2 ∧
    (packedOverflow mode A S O).m.toNat = countOverflows (search A).2 A ∧
    (packedOverflow mode A S O).mainlen.toNat = ceilDiv (A.length * ((search A).2 + 1)) 32 ∧
    (packedOverflow mode A S O).ovflen.toNat =
      ceilDiv (countOverflows (search A).2 A * entryWidth mode (search A).1) 32 := by
  obtain ⟨-, hpkg, -⟩ := search_admissible A
  have hkg : (search A).1 ≤ 32 := search_fst A ▸ bitsNeeded_maxOf_le A
  obtain ⟨-, how32, -⟩ := entryWidth_bounds mode A
  have hm : countOverflows (search A).2 A < 2 ^ 31 := Nat.lt_of_le_of_lt List.countP_le_length hn
  have hmaxn : maxInline (search A).2 < 2 ^ 32 :=
    Nat.lt_of_lt_of_le (Nat.sub_one_lt (Nat.two_pow_pos _).ne') (Nat.pow_le_pow_right (by omega) (by omega))
  exact ⟨toNat_ofNat_of_lt hn, toNat_ofNat_of_lt (by omega), toNat_ofNat_of_lt (by omega), toNat_ofNat_of_lt (by omega),
    toNat_ofNat_of_lt hmaxn, toNat_ofNat_of_lt hm, toNat_ofNat_of_lt (ceilDiv_fields_lt hn (by omega)),
    toNat_ofNat_of_lt (ceilDiv_fields_lt hm (by omega))⟩

/-- What COMPRESS.V3 leaves is stores of MAINLEN and OVFLEN words, and the registers and bits of R47. -/
theorem compressOverflow_inv {mode : OvfMode} {A : List Word} {c : Context} (hn : A.length < 2 ^ 31)
    (h : compressOverflow mode A = .ok c) : Memory.wf c = true ∧ OverflowInv mode c := by
  obtain ⟨S, O, hpack, hlenS, hlenO, hslots, hentries, hpaddingS, hpaddingO⟩ := packOverflow_at_search mode A
  rw [compressOverflow_of_pack hpack, Except.ok.injEq] at h
  subst h
  obtain ⟨hp, hpkg, hm⟩ := search_admissible A
  have hkg32 : (search A).1 ≤ 32 := search_fst A ▸ bitsNeeded_maxOf_le A
  obtain ⟨-, how32, -⟩ := entryWidth_bounds mode A
  obtain ⟨hn', hkg', hp', hkp', hmaxn', hm', hmainlen, hovflen⟩ := packedOverflow_registers mode hn S O
  refine ⟨(Memory.wf_iff _).mpr ⟨hlenS.trans hmainlen.symm, hlenO.trans hovflen.symm⟩, ?_⟩
  exact {
    width := by rw [hp', hkg']; exact ⟨hp, hpkg, hkg32⟩
    slotWidth := by rw [hkp', hp']
    inlineMax := by rw [hmaxn', hp', maxInline]
    words := by rw [hmainlen, hn', hkp']
    padding := by rw [hn', hkp']; exact hpaddingS
    flagged := by
      rw [flaggedSlots, hn', hkp', hp', hm']
      exact flagged_payloads_eq_range hm hslots
    indexFits := by rw [hm', hp']; exact hm
    fallBack := fun heq => by
      have hpkg' : (search A).2 = bitsNeeded (maxOf A) := by rw [← hp', heq, hkg', search_fst]
      refine BitVec.eq_of_toNat_eq ?_
      rw [hm', hpkg', countOverflows_width]
      rfl
    ovfWords := by rw [hovflen, hm', hkg']
    entries := by
      rw [hm', hkg', hmaxn']
      intro e he
      have hbounds := overflowTable_entry_bounds (hentries e he)
      rwa [toNat_ofNat_of_lt (Nat.lt_of_lt_of_le (fieldNat_lt O _ _) (Nat.pow_le_pow_right (by omega) how32)),
        ← search_fst] at hbounds
    ovfPadding := by rw [hm', hkg']; exact hpaddingO
    empty := fun hzero => by
      have hnil : A = [] := List.eq_nil_of_length_eq_zero (by rw [← hn', hzero]; rfl)
      subst hnil
      exact ⟨rfl, rfl⟩
    unused := ⟨rfl, rfl⟩ }

/-! ## Every kind -/

/-- R45, R46 or R47: the rule for the contexts of a codec. -/
def CodecInv (mode : OvfMode) (c : Context) : Codec → Prop
  | .spanning => SpanningInv c
  | .nonSpanning => NonSpanningInv c
  | .overflow => OverflowInv mode c

/-- A context of a codec meets the invariant when it meets the rule for that codec (R44). -/
theorem contextInv_of_codecInv {par : Params} {c : Context} {codec : Codec} (hk : c.kind = kindOf codec)
    (hn : c.n.toNat ≤ par.nmax.toNat) (hstores : Memory.wf c = true) (h : CodecInv par.ovfMode c codec) :
    ContextInv par c where
  capacity := hn
  stores := hstores
  none := fun hnone => by cases codec <;> cases hk.symm.trans hnone
  spanning := fun hkind => by obtain rfl : codec = .spanning := kindOf_injective (hk.symm.trans hkind); exact h
  nonSpanning := fun hkind => by obtain rfl : codec = .nonSpanning := kindOf_injective (hk.symm.trans hkind); exact h
  overflow := fun hkind => by obtain rfl : codec = .overflow := kindOf_injective (hk.symm.trans hkind); exact h

/-- What a COMPRESS packs from a sequence within NMAX meets the invariant (R44 to R47). -/
theorem compressContext_inv {par : Params} {codec : Codec} {A : List Word} {c : Context}
    (hn : A.length ≤ par.nmax.toNat) (h : compressContext par.ovfMode A codec = .ok c) : ContextInv par c := by
  have hn31 : A.length < 2 ^ 31 := Nat.lt_of_le_of_lt hn par.nmax.isLt
  have hcodec : Memory.wf c = true ∧ CodecInv par.ovfMode c codec := by
    cases codec with
    | spanning => exact compressSpanning_inv hn31 h
    | nonSpanning => exact compressNonSpanning_inv hn31 h
    | overflow => exact compressOverflow_inv hn31 h
  obtain ⟨hstores, hinv⟩ := hcodec
  obtain ⟨_, hpacks⟩ := compressContext_holds codec A hn31
  obtain ⟨c', hc', hholds, -⟩ := hpacks par.ovfMode
  obtain rfl : c' = c := Except.ok.inj (hc'.symm.trans h)
  exact contextInv_of_codecInv hholds.kind (hholds.length ▸ hn) hstores hinv

/-- A fresh context meets the invariant under all parameters: a COMPRESS of the empty sequence packs it (R48). -/
theorem freshContext_inv (par : Params) (codec : Codec) : ContextInv par (freshContext codec) :=
  compressContext_inv (Nat.zero_le _) (compressContext_nil par.ovfMode codec)

/-! ## Commands and steps -/

/-- What a command does to the context: it leaves it as it is, or it replaces it by one that meets the invariant,
whatever the context was before (R44 to R47, R51). -/
theorem exec_keeps_ctx_or_inv {i : Instr} {s t : State} (h : exec i s = .next t) :
    t.params = s.params ∧ (t.ctx = s.ctx ∨ ContextInv s.params t.ctx) := by
  rcases exec_next h with ⟨r, rfl⟩ | ⟨c, rfl, ⟨kind, rfl⟩ | ⟨A, rfl⟩⟩
  · exact ⟨rfl, .inl rfl⟩
  · refine ⟨rfl, ?_⟩
    rcases execCreate_next h with ⟨-, ht⟩ | ⟨codec, -, ht⟩
    · exact .inl (by rw [ht, State.raise_ctx])
    · exact .inr (by rw [ht]; exact freshContext_inv _ codec)
  · refine ⟨rfl, ?_⟩
    rcases execCompress_next h with ⟨-, ht⟩ | ⟨codec, -, ⟨-, ht⟩ | ⟨hn, c', hc', ht⟩⟩
    · exact .inl (by rw [ht, State.raise_ctx])
    · exact .inl (by rw [ht, State.raise_ctx])
    · exact .inr (by rw [ht]; exact compressContext_inv hn hc')

/-- What a step does to the context: like a command, whether its packet is one or not. -/
theorem step_keeps_ctx_or_inv {s t : State} (h : step s = .next t) :
    t.params = s.params ∧ (t.ctx = s.ctx ∨ ContextInv s.params t.ctx) := by
  obtain ⟨-, packet, rest, -, ⟨i, -, hexec⟩ | ⟨e, -, -, rfl⟩⟩ := step_next h
  · exact exec_keeps_ctx_or_inv (s := s.consume rest) hexec
  · exact ⟨rfl, .inl rfl⟩

end Sys2Proof.Machine
end

section
/-! PROOF. The obligations about the invariant of the context (spec/10_state.md R41, R44 to R47): reset meets it, and
every step keeps it. -/

namespace Sys2Proof.Machine

/-- Settles O52: a step leaves the context as it is, or installs one that meets the invariant. -/
theorem everyStepKeepsTheInvariant : Obligations.EveryStepKeepsTheInvariant := by
  intro s t hinv hstep
  obtain ⟨hparams, hctx⟩ := step_keeps_ctx_or_inv hstep
  refine ⟨hparams ▸ hinv.params, ?_⟩
  rw [hparams]
  rcases hctx with hsame | hnew
  · exact hsame ▸ hinv.ctx
  · exact hnew

/-- Settles O53: a context that a step installs has canonical stores, whatever the state was before. -/
theorem everyStepKeepsTheStoresCanonical : Obligations.EveryStepKeepsTheStoresCanonical := by
  intro s t hwf hstep
  obtain ⟨-, hsame | hnew⟩ := step_keeps_ctx_or_inv hstep
  · rwa [hsame]
  · exact hnew.stores

/-- Settles O51: under KIND = NONE the invariant asks for the reset context. -/
theorem resetMeetsTheInvariant : Obligations.ResetMeetsTheInvariant where
  params := rfl
  ctx := {
    capacity := Nat.zero_le _
    stores := Memory.wf_reset
    none := fun _ => rfl
    spanning := fun h => nomatch h
    nonSpanning := fun h => nomatch h
    overflow := fun h => nomatch h }

end Sys2Proof.Machine
end

section
/-! SUPPORT. The decoder and the encoder are inverse to each other (spec/30_encoding.md sections 1, 2, 7), and which
heads match a row of the opcode table. -/

namespace Sys2Proof.Machine

/-! ## Encode, then decode -/

/-- The encoding of a well-formed command is one complete packet: the count of a COMPRESS fits its operand word (R74,
R78). -/
theorem encode_complete {i : Instr} (h : i.wf = true) :
    ∃ w0 w1 payload, encode i = w0 :: w1 :: payload ∧ payload.length = payloadLength w0 w1 := by
  cases i with
  | compress A =>
    have hcount : A.length < 2 ^ 32 := of_decide_eq_true h
    exact ⟨_, _, A, rfl, (toNat_ofNat_of_lt hcount).symm⟩
  | create kind => exact ⟨_, _, [], rfl, rfl⟩
  | decompress => exact ⟨_, _, [], rfl, rfl⟩
  | get index => exact ⟨_, _, [], rfl, rfl⟩
  | size => exact ⟨_, _, [], rfl, rfl⟩

/-- The encoding of a well-formed command is taken whole off the port, whatever words follow it (R73, R78). -/
theorem takePacket_encode {i : Instr} (h : i.wf = true) (rest : List Word) :
    takePacket (encode i ++ rest) = some (encode i, rest) := by
  obtain ⟨w0, w1, payload, hwords, hlen⟩ := encode_complete h
  rw [hwords]
  exact takePacket_append w0 w1 payload rest hlen

/-- The encoding of a well-formed command decodes to it (R97). -/
theorem decode_encode {i : Instr} (h : i.wf = true) : decode (encode i) = .ok i := by
  cases i with
  | compress A =>
    have hcount : A.length < 2 ^ 32 := of_decide_eq_true h
    have hlen : ¬ A.length ≠ payloadLength 0x02000000#32 (BitVec.ofNat 32 A.length) :=
      not_not_intro (toNat_ofNat_of_lt hcount).symm
    rw [encode, decode, if_neg hlen]
    rfl
  | create kind => rfl
  | decompress => rfl
  | get index => rfl
  | size => rfl

/-! ## Decode, then encode -/

/-- What the decoder accepts (R97): a complete packet without reserved bits, whose opcode is that of its command, with
operand 0 where the command has none. -/
theorem decode_ok {packet : List Word} {i : Instr} (h : decode packet = .ok i) :
    ∃ w0 w1 payload, packet = w0 :: w1 :: payload ∧ payload.length = payloadLength w0 w1 ∧ reservedOf w0 = 0#24 ∧
      ((opcodeOf w0 = 0x01#8 ∧ i = .create w1) ∨ (opcodeOf w0 = 0x02#8 ∧ i = .compress payload) ∨
       (opcodeOf w0 = 0x03#8 ∧ w1 = 0#32 ∧ i = .decompress) ∨ (opcodeOf w0 = 0x04#8 ∧ i = .get w1) ∨
       (opcodeOf w0 = 0x05#8 ∧ w1 = 0#32 ∧ i = .size)) := by
  unfold decode at h
  split at h
  next w0 w1 payload =>
    split at h
    · cases h
    next hlen =>
    split at h
    · cases h
    next hop =>
    split at h
    · cases h
    next hres =>
    split at h
    · cases h
    next hzero =>
    refine ⟨w0, w1, payload, rfl, not_not.mp hlen, not_not.mp hres, ?_⟩
    split at h
    next h1 => exact .inl ⟨h1, (Except.ok.inj h).symm⟩
    next h1 =>
    split at h
    next h2 => exact .inr (.inl ⟨h2, (Except.ok.inj h).symm⟩)
    next h2 =>
    split at h
    next h3 =>
      have hw1 : w1 = 0#32 := not_not.mp fun hne => hzero ⟨.inl h3, hne⟩
      exact .inr (.inr (.inl ⟨h3, hw1, (Except.ok.inj h).symm⟩))
    next h3 =>
    split at h
    next h4 => exact .inr (.inr (.inr (.inl ⟨h4, (Except.ok.inj h).symm⟩)))
    next h4 =>
      have h5 : opcodeOf w0 = 0x05#8 := by bv_omega
      have hw1 : w1 = 0#32 := not_not.mp fun hne => hzero ⟨.inr h5, hne⟩
      exact .inr (.inr (.inr (.inr ⟨h5, hw1, (Except.ok.inj h).symm⟩)))
  next => cases h

/-- A header word without reserved bits is its opcode followed by zeros (R75). -/
theorem header_eq {w0 : Word} {op : BitVec 8} (hop : opcodeOf w0 = op) (hres : reservedOf w0 = 0#24) :
    w0 = BitVec.ofNat 32 (2 ^ 24 * op.toNat) := by
  have hopNat := congrArg BitVec.toNat hop
  have hresNat := congrArg BitVec.toNat hres
  rw [opcodeOf, BitVec.extractLsb'_toNat, Nat.shiftRight_eq_div_pow] at hopNat
  rw [reservedOf, BitVec.extractLsb'_toNat, Nat.shiftRight_zero, BitVec.toNat_ofNat] at hresNat
  apply BitVec.eq_of_toNat_eq
  rw [BitVec.toNat_ofNat]
  have hw0 := w0.isLt
  omega

/-- Words that decode to a command are its encoding, and the command is well-formed (R97). -/
theorem encode_of_decode {packet : List Word} {i : Instr} (h : decode packet = .ok i) :
    encode i = packet ∧ i.wf = true := by
  obtain ⟨w0, w1, payload, rfl, hlen, hres, hcases⟩ := decode_ok h
  rcases hcases with ⟨hop, rfl⟩ | ⟨hop, rfl⟩ | ⟨hop, rfl, rfl⟩ | ⟨hop, rfl⟩ | ⟨hop, rfl, rfl⟩
  case inr.inl =>
    rw [payloadLength_compress hop] at hlen
    refine ⟨?_, decide_eq_true (hlen ▸ w1.isLt)⟩
    rw [encode, hlen, BitVec.ofNat_toNat, BitVec.setWidth_eq, header_eq hop hres]
    rfl
  all_goals
    rw [payloadLength_eq_zero (by rw [hop]; decide)] at hlen
    rw [List.eq_nil_of_length_eq_zero hlen, header_eq hop hres]
    exact ⟨rfl, rfl⟩

/-! ## The opcode table -/

/-- The head of a packet determines its two words (R75). -/
theorem headOf_inj {w0 w1 v0 v1 : Word} (h : headOf w0 w1 = headOf v0 v1) : w0 = v0 ∧ w1 = v1 := by
  have hhigh := congrArg (BitVec.extractLsb' 32 32) h
  have hlow := congrArg (BitVec.extractLsb' 0 32) h
  rw [headOf, headOf, BitVec.extractLsb'_append_eq_left, BitVec.extractLsb'_append_eq_left] at hhigh
  rw [headOf, headOf, BitVec.extractLsb'_append_eq_right, BitVec.extractLsb'_append_eq_right] at hlow
  exact ⟨hhigh, hlow⟩

/-- A head matches a row whose mask leaves the operand out exactly when its header word is the row's (R79). -/
theorem head_match_operand {w0 w1 v0 : Word} (h : headOf w0 w1 &&& 0xFFFFFFFF00000000 = headOf v0 0#32) : w0 = v0 := by
  rw [Laws.HeadOfEncode.head_mask] at h
  exact (headOf_inj h).1

/-- A complete packet whose head matches a row of the table is the packet of a command with the row's mnemonic (R79,
R81 to R85). -/
theorem packet_of_row {w0 w1 : Word} {payload : List Word} {row : TableRow}
    (hlen : payload.length = payloadLength w0 w1) (hrow : row ∈ opcodeTable)
    (hmatch : headOf w0 w1 &&& row.mask = row.pattern) :
    ∃ i : Instr, i.wf = true ∧ encode i = w0 :: w1 :: payload ∧ mnemonicOf i = row.mnemonic := by
  simp only [opcodeTable, List.mem_cons, List.not_mem_nil, or_false] at hrow
  rcases hrow with rfl | rfl | rfl | rfl | rfl
  · obtain rfl := head_match_operand (v0 := 0x01000000#32) hmatch
    exact ⟨.create w1, rfl, by rw [List.eq_nil_of_length_eq_zero hlen]; rfl, rfl⟩
  · obtain rfl := head_match_operand (v0 := 0x02000000#32) hmatch
    have hcount : payload.length = w1.toNat := hlen
    refine ⟨.compress payload, decide_eq_true (hcount ▸ w1.isLt), ?_, rfl⟩
    rw [encode, hcount, BitVec.ofNat_toNat, BitVec.setWidth_eq]
  · obtain ⟨rfl, rfl⟩ := headOf_inj (v0 := 0x03000000#32) (v1 := 0#32) ((BitVec.and_allOnes).symm.trans hmatch)
    exact ⟨.decompress, rfl, by rw [List.eq_nil_of_length_eq_zero hlen]; rfl, rfl⟩
  · obtain rfl := head_match_operand (v0 := 0x04000000#32) hmatch
    exact ⟨.get w1, rfl, by rw [List.eq_nil_of_length_eq_zero hlen]; rfl, rfl⟩
  · obtain ⟨rfl, rfl⟩ := headOf_inj (v0 := 0x05000000#32) (v1 := 0#32) ((BitVec.and_allOnes).symm.trans hmatch)
    exact ⟨.size, rfl, by rw [List.eq_nil_of_length_eq_zero hlen]; rfl, rfl⟩

/-- The encoding of every command has a head that matches the row of its mnemonic (R79). -/
theorem headOfEncode (i : Instr) : Laws.HeadOfEncode.Statement i := by
  cases i with
  | create kind => exact Laws.HeadOfEncode.create kind
  | compress A => exact Laws.HeadOfEncode.compress A
  | decompress => exact Laws.HeadOfEncode.decompress
  | get index => exact Laws.HeadOfEncode.get index
  | size => exact Laws.HeadOfEncode.size

end Sys2Proof.Machine
end

section
/-! PROOF. The obligations about the encoding of the commands (spec/30_encoding.md sections 1, 2, 7), and the step that
runs a decoded command. -/

namespace Sys2Proof.Machine

/-- Settles O1: the encoding of a well-formed command is one complete packet, and the decoder reads its opcode. -/
theorem decodeOfEncodeGivesTheCommand : Obligations.DecodeOfEncodeGivesTheCommand :=
  fun _ hwf => ⟨decode_encode hwf, takePacket_encode hwf⟩

/-- Settles O2: the decoder accepts a header word without reserved bits only, which its opcode determines. -/
theorem encodeOfDecodeGivesThePacket : Obligations.EncodeOfDecodeGivesThePacket :=
  fun _ _ hdecode => encode_of_decode hdecode

/-- Settles O3: both sides say that the packet is the encoding of a command with the mnemonic. -/
theorem decodeAgreesWithTheOpcodeTable : Obligations.DecodeAgreesWithTheOpcodeTable := by
  intro w0 w1 payload hlen name
  constructor
  · rintro ⟨i, hdecode, rfl⟩
    obtain ⟨v0, v1, tail, hwords, -, hrow⟩ := headOfEncode i
    rw [(encode_of_decode hdecode).1] at hwords
    obtain ⟨rfl, rfl, -⟩ : w0 = v0 ∧ w1 = v1 ∧ payload = tail := by simpa using hwords
    exact hrow
  · rintro ⟨row, hrow, rfl, hmatch⟩
    obtain ⟨i, hwf, hwords, hname⟩ := packet_of_row hlen hrow hmatch
    exact ⟨i, hwords ▸ decode_encode hwf, hname⟩

/-- Settles O4: each packet is the encoding of its command, which decodes to it. -/
theorem concretePacketsDecode : Obligations.ConcretePacketsDecode :=
  ⟨decode_encode (i := .create 2#32) rfl, decode_encode (i := .compress [1#32, 32#32]) rfl,
    decode_encode (i := .decompress) rfl, decode_encode (i := .get 0xFFFFFFFF#32) rfl, decode_encode (i := .size) rfl⟩

/-- Settles O10: the overlap is looked at before the words on the port are. -/
theorem overlappingPacketsAreRefused : Obligations.OverlappingPacketsAreRefused := by
  intro s
  rw [step, runNext, if_pos s.hostOverlap_portClash]

/-- Settles O11: the encoding is the packet that is taken off the port, and it decodes to the command. -/
theorem stepRunsTheDecodedCommand : Obligations.StepRunsTheDecodedCommand := by
  intro s i rest hwf hclash hport
  rw [step_of_takePacket hclash (hport ▸ takePacket_encode hwf rest), runPacket_of_decode (decode_encode hwf)]

end Sys2Proof.Machine
end

section
/-! SUPPORT. What GET.V3 reads under R47 (spec/44_overflow_v3.md R174), that a complete packet is answered from a state
whose elements can be read (spec/30_encoding.md R97), and what a command leaves unchanged. -/

namespace Sys2Proof.Machine

/-! ## GET under OVERFLOW -/

/-- Under R47 a slot of V3 can be read; its flag is bit P of the slot and its payload the P bits below (R160, R174). -/
theorem overflowSlot_of_inv {mode : OvfMode} {c : Context} {i : Nat} (h : OverflowInv mode c)
    (hmain : c.main.length = c.mainlen.toNat) (hi : i < c.n.toNat) :
    ∃ f, fieldRead c.main c.mainlen.toNat c.kp.toNat i = .ok f ∧
      slotFlag c.p.toNat f = storeBit c.main (i * c.kp.toNat + c.p.toNat) ∧
      (slotPayload c.p.toNat f).toNat = fieldNat c.main (i * c.kp.toNat) c.p.toNat := by
  obtain ⟨hp, hpkg, hkg32⟩ := h.width
  have hkp := h.slotWidth
  have hfits : c.n.toNat * c.kp.toNat ≤ 32 * c.main.length := by
    rw [hmain, h.words]
    exact le_mul_ceilDiv _ 32 (by omega)
  obtain ⟨f, hread, hf⟩ := fieldRead_toNat (by omega) (field_in_range hi hfits)
  rw [hmain] at hread
  refine ⟨f, hread, ?_, ?_⟩
  · rw [slotFlag, BitVec.getLsbD, hf, testBit_fieldNat]
    simp [hkp]
  · rw [toNat_slotPayload (by omega), hf, ← fieldNat_succ_mod _ _ c.p.toNat, ← hkp]

/-- A number of at most 32 bits in the accumulator is the word of that number (R139, R174). -/
theorem toWord_eq_ofNat {v : Acc} {x w : Nat} (hv : v.toNat = x) (hw : w ≤ 32) (hx : x < 2 ^ w) :
    toWord v = .ok (BitVec.ofNat 32 x) := by
  obtain rfl : v = BitVec.ofNat 64 x := by rw [← hv, BitVec.ofNat_toNat, BitVec.setWidth_eq]
  exact toWord_ok x (Nat.lt_of_lt_of_le hx (Nat.pow_le_pow_right (by omega) hw))

/-- Under R47, GET.V3 on an unflagged slot answers the payload (R174). -/
theorem getOverflow_inline_eq_fieldNat {mode : OvfMode} {c : Context} {i : Nat} (h : OverflowInv mode c)
    (hmain : c.main.length = c.mainlen.toNat) (hi : i < c.n.toNat)
    (hflag : storeBit c.main (i * c.kp.toNat + c.p.toNat) = false) :
    getOverflow mode c i = .ok (BitVec.ofNat 32 (fieldNat c.main (i * c.kp.toNat) c.p.toNat)) := by
  obtain ⟨f, hread, hbit, hpayload⟩ := overflowSlot_of_inv h hmain hi
  obtain ⟨-, hpkg, hkg32⟩ := h.width
  rw [getOverflow_inline hread (hbit.trans hflag)]
  exact toWord_eq_ofNat hpayload (hpkg.trans hkg32) (fieldNat_lt _ _ _)

/-- Under R47, GET.V3 on a flagged slot answers the entry of OVF that the payload names (R174). -/
theorem getOverflow_flagged_eq_fieldNat {mode : OvfMode} {c : Context} {i e : Nat} (h : OverflowInv mode c)
    (hmain : c.main.length = c.mainlen.toNat) (hovf : c.ovf.length = c.ovflen.toNat) (hi : i < c.n.toNat)
    (hflag : storeBit c.main (i * c.kp.toNat + c.p.toNat) = true)
    (he : fieldNat c.main (i * c.kp.toNat) c.p.toNat = e) :
    getOverflow mode c i =
      .ok (BitVec.ofNat 32 (fieldNat c.ovf (e * entryWidth mode c.kg.toNat) (entryWidth mode c.kg.toNat))) := by
  obtain ⟨f, hread, hbit, hpayload⟩ := overflowSlot_of_inv h hmain hi
  obtain ⟨hp, hpkg, hkg32⟩ := h.width
  obtain ⟨how, how32⟩ := entryWidth_range mode (kg := c.kg.toNat) (by omega)
  have hfits : c.m.toNat * entryWidth mode c.kg.toNat ≤ 32 * c.ovf.length := by
    rw [hovf, h.ovfWords]
    exact le_mul_ceilDiv _ 32 (by omega)
  have hentry : e < c.m.toNat := he ▸ flagged_payload_lt h hi hflag
  obtain ⟨entry, hreadEntry, hval⟩ := fieldRead_toNat (by omega) (field_in_range hentry hfits)
  rw [hovf, ← he, ← hpayload] at hreadEntry
  rw [getOverflow_flagged hread (hbit.trans hflag) hreadEntry]
  exact toWord_eq_ofNat hval how32 (fieldNat_lt _ _ _)

/-! ## A complete packet is answered -/

/-- A complete packet that decodes to no command decodes to `illegal` (R97, R98). -/
theorem decode_ne_notOnePacket {w0 w1 : Word} {payload : List Word} (hlen : payload.length = payloadLength w0 w1) :
    decode (w0 :: w1 :: payload) ≠ .error .notOnePacket := by
  rw [decode, if_neg (not_not_intro hlen)]
  repeat' split
  all_goals simp

/-- A complete packet completes in a state whose elements can be read, whether it is a command or not (R97, R199). -/
theorem completes_runPacket {s : State} (h : s.Readable) {packet : List Word}
    (hpacket : decode packet ≠ .error .notOnePacket) : Completes (runPacket packet s) := by
  cases hd : decode packet with
  | ok i =>
    rw [runPacket_of_decode hd]
    exact completes_exec h i
  | error e =>
    rw [runPacket_of_illegal hd fun he => hpacket (he ▸ hd)]
    exact completes_respond h _

/-- A step with a complete packet on the port completes in a state whose elements can be read (R72, R97). -/
theorem completes_step {s : State} (h : s.Readable) (hready : s.Ready) : Completes (step s) := by
  obtain ⟨hclash, htaken⟩ := hready
  obtain ⟨⟨packet, rest⟩, htake⟩ := Option.isSome_iff_exists.mp htaken
  obtain ⟨w0, w1, payload, rfl, hlen, -⟩ := takePacket_eq_some htake
  rw [step_of_takePacket hclash htake]
  exact completes_runPacket (s := s.consume rest) h (decode_ne_notOnePacket hlen)

/-! ## What a command leaves unchanged -/

/-- A COMPRESS that answers a next state keeps KIND (R102). -/
theorem execCompress_keeps_kind {A : List Word} {s t : State} (h : execCompress A s = .next t) :
    t.ctx.kind = s.ctx.kind := by
  rcases execCompress_next h with ⟨-, rfl⟩ | ⟨codec, hk, ⟨-, rfl⟩ | ⟨hn, -⟩⟩
  · rfl
  · rfl
  · obtain ⟨c, -, hexec, hholds⟩ := exec_compress_holds hk hn
    obtain rfl := Host.Outcome.next.inj (hexec.symm.trans h)
    exact hholds.kind.trans hk.symm

end Sys2Proof.Machine
end

section
/-! PROOF. The obligations about what GET answers (spec/40_shared_contract.md R105, R115, spec/44_overflow_v3.md R174),
what the commands write (spec/10_state.md R43, R51), and the response to every complete packet (spec/30_encoding.md
R97). -/

namespace Sys2Proof.Machine

/-- Settles O16: a command adds a response, and beside that only CREATE and COMPRESS commit a context; the one a
COMPRESS commits is of the kind selected. -/
theorem onlyCreateAndCompressWriteTheContext : Obligations.OnlyCreateAndCompressWriteTheContext := by
  intro i s t hexec
  rcases exec_next hexec with ⟨r, rfl⟩ | ⟨c, rfl, ⟨kind, rfl⟩ | ⟨A, rfl⟩⟩
  · exact ⟨rfl, rfl, rfl, fun _ => rfl, fun _ _ => rfl⟩
  · exact ⟨rfl, rfl, rfl, fun h => absurd rfl (h kind), fun h => absurd rfl (h kind)⟩
  · exact ⟨rfl, rfl, rfl, fun _ => execCompress_keeps_kind hexec, fun _ h => absurd rfl (h A)⟩

/-- Settles O36: the bounds check comes first, and under the invariant every element below N can be read. -/
theorem getChecksTheBounds : Obligations.GetChecksTheBounds := by
  intro s i hinv hk
  refine ⟨exec_get_out_of_bounds hk, fun hi => ?_⟩
  obtain ⟨codec, hcodec⟩ := exists_codec _ hk
  obtain ⟨v, hv⟩ := readable_of_contextInv hinv.ctx codec hcodec i.toNat hi
  exact ⟨codec, v, hcodec, hv, exec_get_of_element hcodec hi hv⟩

/-- Settles O40: the invariant gives R47 and the lengths of the stores, under which GET.V3 reads the slot and, where its
flag is set, the entry it names. -/
theorem getOverflowFollowsTheFlag : Obligations.GetOverflowFollowsTheFlag := by
  intro s i hinv hk hi
  obtain ⟨hmain, hovf⟩ := (Memory.wf_iff s.ctx).mp hinv.ctx.stores
  have hoverflow := hinv.ctx.overflow hk
  refine ⟨_, _, rfl, rfl, fun hflag => ?_, fun hflag => ⟨flagged_payload_lt hoverflow hi hflag, ?_⟩⟩
  · exact exec_get_of_element (codec := .overflow) hk hi (getOverflow_inline_eq_fieldNat hoverflow hmain hi hflag)
  · rw [← entryWidth_eq_ite]
    exact exec_get_of_element (codec := .overflow) hk hi
      (getOverflow_flagged_eq_fieldNat hoverflow hmain hovf hi hflag rfl)

/-- Settles O54: the invariant makes every element readable, so the step completes, and a step that completes adds one
response. -/
theorem everyCompletePacketIsAnswered : Obligations.EveryCompletePacketIsAnswered := by
  intro s hinv hready
  obtain ⟨t, hstep, -⟩ := completes_step (readable_of_contextInv hinv.ctx) hready
  obtain ⟨-, r, hresp⟩ := step_ports hstep
  exact ⟨t, r, hstep, hresp⟩

end Sys2Proof.Machine
end

section
/-! SUPPORT. The lines of R95 from their tokens to their words (spec/30_encoding.md section 6). -/

namespace Sys2Proof.Machine

/-- The words of a line are those of what its tokens stand for (R95). -/
theorem assemble_of_tokens {line : String} {tokens : List (List Char)} (h : tokensOf [] line.toList = tokens) :
    assemble line = (lineOf tokens).map AsmLine.words := by
  rw [assemble, h]

/-- The tokens of a name and one operand, after one blank (R95). -/
theorem tokensOf_name_operand {name operand : List Char}
    (hname : name ≠ [] ∧ ∀ c ∈ name, c ≠ ';' ∧ c ≠ ' ' ∧ c ≠ '\t')
    (hoperand : operand ≠ [] ∧ ∀ c ∈ operand, c ≠ ';' ∧ c ≠ ' ' ∧ c ≠ '\t') :
    tokensOf [] (name ++ ' ' :: operand) = [name, operand] := by
  obtain ⟨hne, hchars⟩ := hname
  have hrest := tokensOf_operands [operand] name hne (by simpa using hoperand)
  rw [List.flatMap_singleton] at hrest
  rw [tokensOf_append name [] _ hchars, List.nil_append, hrest]

/-- CREATE with a number for its kind code (R95). -/
theorem assemble_create_number {t : List Char} {v : Word} (h : NumberText t v) :
    assemble ("CREATE #" ++ String.ofList t) = some [0x01000000#32, v] := by
  obtain ⟨-, hchars⟩ := numberText_token h
  have htokens : tokensOf [] ("CREATE #" ++ String.ofList t).toList = [['C', 'R', 'E', 'A', 'T', 'E'], '#' :: t] := by
    have hoperand := tokensOf_name_operand (name := ['C', 'R', 'E', 'A', 'T', 'E']) (operand := '#' :: t) (by simp)
      ⟨List.cons_ne_nil _ _, List.forall_mem_cons.mpr ⟨by simp, hchars⟩⟩
    simpa using hoperand
  rw [assemble_of_tokens htokens, lineOf_create, numberOf_text h]
  rfl

/-- GET with a number for its index (R95). -/
theorem assemble_get_number {t : List Char} {v : Word} (h : NumberText t v) :
    assemble ("GET " ++ String.ofList t) = some [0x04000000#32, v] := by
  have htokens : tokensOf [] ("GET " ++ String.ofList t).toList = [['G', 'E', 'T'], t] := by
    have hoperand := tokensOf_name_operand (name := ['G', 'E', 'T']) (by simp) (numberText_token h)
    simpa using hoperand
  rw [assemble_of_tokens htokens, lineOf_get, numberOf_text h]
  rfl

/-- COMPRESS with any number of values that its count can hold (R95). -/
theorem assemble_compress {numbers : List (List Char × Word)} (h : ∀ a ∈ numbers, NumberText a.1 a.2)
    (hlen : numbers.length < 2 ^ 32) : assemble ("COMPRESS" ++ operandText numbers) =
      some (0x02000000#32 :: BitVec.ofNat 32 numbers.length :: numbers.map (·.2)) := by
  have htokens : tokensOf [] ("COMPRESS" ++ operandText numbers).toList =
      ['C', 'O', 'M', 'P', 'R', 'E', 'S', 'S'] :: numbers.map (·.1) := by
    rw [String.toList_append]
    exact tokensOf_operandText ['C', 'O', 'M', 'P', 'R', 'E', 'S', 'S'] (by simp) (by simp) numbers h
  rw [assemble_of_tokens htokens, lineOf_compress (numbersOf_text numbers h) (by rwa [List.length_map])]
  simp [AsmLine.words, encode]

/-- A `.word` line with any numbers (R95). -/
theorem assemble_word {numbers : List (List Char × Word)} (h : ∀ a ∈ numbers, NumberText a.1 a.2) :
    assemble (".word" ++ operandText numbers) = some (numbers.map (·.2)) := by
  have htokens : tokensOf [] (".word" ++ operandText numbers).toList =
      ['.', 'w', 'o', 'r', 'd'] :: numbers.map (·.1) := by
    rw [String.toList_append]
    exact tokensOf_operandText ['.', 'w', 'o', 'r', 'd'] (by simp) (by simp) numbers h
  rw [assemble_of_tokens htokens, lineOf_word, numbersOf_text numbers h]
  rfl

/-- A comment at the end of a line changes nothing (R95). -/
theorem assemble_comment (line comment : String) : assemble (line ++ ";" ++ comment) = assemble line := by
  refine assemble_of_tokens ?_
  rw [String.toList_append, String.toList_append, List.append_assoc]
  exact tokensOf_comment line.toList comment.toList []

/-- A blank at the end of a line changes nothing. -/
theorem assemble_blank (line : String) : assemble (line ++ " ") = assemble line := by
  refine assemble_of_tokens ?_
  rw [String.toList_append]
  exact tokensOf_blank line.toList []

/-- What an assembling line is (R95, R96): the one packet of a well-formed command under its mnemonic, or the numbers of
a `.word`. -/
theorem assemble_some {line : String} {ws : List Word} (h : assemble line = some ws) :
    (∃ i operands, tokensOf [] line.toList = (mnemonicOf i).toList :: operands ∧ i.wf = true ∧ ws = encode i) ∨
    ∃ operands, tokensOf [] line.toList = ".word".toList :: operands ∧ numbersOf operands = some ws := by
  obtain ⟨l, hline, rfl⟩ := Option.map_eq_some_iff.mp h
  rcases lineOf_some hline with ⟨i, operands, htokens, hwf, rfl⟩ | ⟨operands, ws, htokens, hnumbers, rfl⟩
  · exact .inl ⟨i, operands, htokens, hwf, rfl⟩
  · exact .inr ⟨operands, htokens, hnumbers⟩

end Sys2Proof.Machine
end

section
/-! PROOF. The obligation about the lines of the assembler (spec/30_encoding.md section 6, R95, R96). -/

namespace Sys2Proof.Machine

/-- Settles O5: the rows without a number are evaluated, each row with numbers has its lemma, and a command's words are
its encoding, which is one packet and decodes to it. -/
theorem everyAssembledLineIsOnePacket : Obligations.EveryAssembledLineIsOnePacket := by
  refine ⟨by decide, by decide, by decide, by decide, by decide, by decide,
    fun t v h => ⟨assemble_create_number h, assemble_get_number h⟩,
    fun numbers h => ⟨assemble_compress h, assemble_word h⟩,
    fun line comment => ⟨assemble_comment line comment, assemble_blank line⟩, fun line ws h => ?_⟩
  refine (assemble_some h).imp_left ?_
  rintro ⟨i, operands, htokens, hwf, rfl⟩
  have htake := takePacket_encode hwf []
  rw [List.append_nil] at htake
  exact ⟨i, operands, htokens, hwf, rfl, htake, decode_encode hwf⟩

end Sys2Proof.Machine
end
